-- ==== Sys2Proof/Word.lean ====
section
/-!
DEFINITION. The two word types of the block's ports: a byte (spec/00_scope.md R7) and the command word (spec/30_encoding.md
R60). Bit 0 is the least significant bit of both (R6).
-/

namespace Sys2Proof

/-- A byte of a report, of a snapshot, or on the `RB` port: 0 to 255 (spec/00_scope.md R7). -/
abbrev Byte := BitVec 8

/-- A command word, `CMD[31:0]` (spec/30_encoding.md R60). -/
abbrev Word := BitVec 32

end Sys2Proof
end

