-- ==== Sys2Proof/Config.lean ====
section
/-!
DEFINITION. What the hardware fixes (spec/00_scope.md R5) and the one free value of the model.
-/

namespace Sys2Proof.Config

/-- `C`: the number of button cells (spec/00_scope.md R5; spec/90_conflicts.md C2). -/
abbrev capacity : Nat := 128

/-- `GS`: the buttons of one group (spec/00_scope.md R5). -/
abbrev groupSize : Nat := 16

/-- `NG`: the number of groups, the width of `GMAP` (spec/00_scope.md R5). -/
abbrev groups : Nat := 8

/-- `PL`: the bytes of a snapshot (spec/00_scope.md R5). -/
abbrev packedLength : Nat := 16

/-- `MINLEN`: the least length of a condition report (spec/00_scope.md R5; spec/20_memory.md R42). -/
abbrev minLength : Nat := 15

/-- The number of offsets of the `RB` space: `LEN` is at most 65535, so offsets run from 0 to 65534
(spec/20_memory.md R40; the width `LENW = 16` of spec/00_scope.md R5). -/
abbrev bufferSpace : Nat := 65535

/-- FREE VALUE, DESIGN CHOICE (notes/assumptions/4.md): the byte on a lane of the `RB` port that the host has not driven, for
the number of changes the host has made to the buffer and the offset of the lane. The block cannot check `LEN` against
the bytes actually written (spec/70_reset_and_hazards.md R143), so a DECC may read such a lane. It stays the same while
the host leaves the buffer alone, as the spec's idempotent reads ask (spec/20_memory.md R48). -/
opaque undrivenByte : Nat → Nat → Byte

end Sys2Proof.Config
end

