-- ==== Sys2Proof/Syntax.lean ====
section
/-!
DEFINITION. The commands of the block, one constructor per row of spec/opcode_table.json (spec/30_encoding.md R64), over the
abstract operands in which the spec states their meaning (spec/00_scope.md R12).
-/

namespace Sys2Proof

/-- A command of the closed list of four operations (spec/00_scope.md R3). -/
inductive Instr where
  /-- `SETB index, value`: `setButton(index, value)`. The index is an integer and may be negative
  (spec/00_scope.md R7; spec/40_encoder.md R80). -/
  | setb (index : Int) (value : Bool)
  /-- `SNAP`: `snapshot()` (spec/40_encoder.md R83). -/
  | snap
  /-- `TGRP`: `touchedGroups()` (spec/40_encoder.md R86). -/
  | tgrp
  /-- `DECC buffer`: `decode(buffer)`. `none` is the absent buffer, `some len` a present buffer of `len` bytes, which
  stand on the `RB` port (spec/30_encoding.md R63; spec/41_decoder.md R100). -/
  | decc (buffer : Option Nat)
  deriving DecidableEq, Repr

end Sys2Proof
end

