-- ==== Sys2Proof/WellFormed.lean ====
section
/-!
DEFINITION. Which commands a command word can carry: the ranges of the two operand fields (spec/30_encoding.md R61, R63).
-/

namespace Sys2Proof

/-- The range of `INDEX`, a 16-bit two's-complement field (spec/30_encoding.md R61). -/
def indexFits (index : Int) : Bool := decide (-32768 ≤ index) && decide (index ≤ 32767)

/-- The range of `LEN`, a 16-bit unsigned field (spec/30_encoding.md R63). -/
def lengthFits (len : Nat) : Bool := decide (len ≤ 65535)

/-- The command has a command word: each operand fits its field. -/
def Instr.wellFormed : Instr → Bool
  | .setb index _ => indexFits index
  | .snap => true
  | .tgrp => true
  | .decc none => true
  | .decc (some len) => lengthFits len

end Sys2Proof
end

