-- ==== Sys2Proof/Decode.lean ====
section
/-!
DEFINITION. The command word: its fields, the opcode map, the total decoder with a name for each kind of illegal word, the
encoder, and the text form (spec/30_encoding.md R60 to R73). The decoder follows R73, the encoder the figures of R61 to R63.
-/

namespace Sys2Proof

/-! ### Fields -/

/-- `OP`, bits 31:28 (spec/30_encoding.md R60). -/
def opField (w : Word) : BitVec 4 := w.extractLsb' 28 4

/-- `RSV`, bits 27:17 (spec/30_encoding.md R60). -/
def rsvField (w : Word) : BitVec 11 := w.extractLsb' 17 11

/-- `V`, bit 16 (spec/30_encoding.md R60). -/
def vField (w : Word) : Bool := w.getLsbD 16

/-- `IMM`, bits 15:0 (spec/30_encoding.md R60). -/
def immField (w : Word) : BitVec 16 := w.extractLsb' 0 16

/-- `sext_16(v)`: the two's-complement reading of a 16-bit pattern `v`, 0 to 65535 (spec/00_scope.md R7). -/
def sext16 (v : Nat) : Int := if v < 32768 then (v : Int) else (v : Int) - 65536

/-- `index = sext_16(CMD[15:0])` (spec/30_encoding.md R65). -/
def indexField (w : Word) : Int := sext16 (immField w).toNat

/-- `len = zext(CMD[15:0])` (spec/30_encoding.md R65). -/
def lenField (w : Word) : Nat := (immField w).toNat

/-! ### The opcode map -/

/-- One row of the opcode map: the bits of `mask` must equal those of `pattern` (spec/30_encoding.md R64). -/
structure OpcodeRow where
  mnemonic : String
  pattern : Word
  mask : Word
  deriving DecidableEq, Repr

/-- The word is selected by the row. -/
def OpcodeRow.selects (r : OpcodeRow) (w : Word) : Bool := w &&& r.mask == r.pattern

def setbRow : OpcodeRow := ⟨"SETB", 0x10000000#32, 0xFFFE0000#32⟩
def snapRow : OpcodeRow := ⟨"SNAP", 0x20000000#32, 0xFFFFFFFF#32⟩
def tgrpRow : OpcodeRow := ⟨"TGRP", 0x30000000#32, 0xFFFFFFFF#32⟩
def deccRow : OpcodeRow := ⟨"DECC", 0x40000000#32, 0xFFFE0000#32⟩

/-- The four rows (spec/30_encoding.md R64; spec/opcode_table.json). -/
def opcodeTable : List OpcodeRow := [setbRow, snapRow, tgrpRow, deccRow]

/-- The row of a command. -/
def Instr.row : Instr → OpcodeRow
  | .setb _ _ => setbRow
  | .snap => snapRow
  | .tgrp => tgrpRow
  | .decc _ => deccRow

/-! ### The decoder -/

/-- Why a word matches no row: the three cases of spec/30_encoding.md R66. All three get the same response; the names are the
model's (notes/assumptions/7.md). -/
inductive IllegalWord where
  /-- `OP` in 0x0, 0x5 to 0xF. -/
  | reservedOp
  /-- `OP` in 0x1, 0x4 and `RSV` not 0. -/
  | reservedBits
  /-- `OP` in 0x2, 0x3 and some bit of 27:0 set. -/
  | operandBits
  deriving DecidableEq, Repr

/-- The name of the case of spec/30_encoding.md R66, for a word that matches no row. -/
def illegalWord (w : Word) : IllegalWord :=
  if opField w == 0x1#4 || opField w == 0x4#4 then .reservedBits
  else if opField w == 0x2#4 || opField w == 0x3#4 then .operandBits
  else .reservedOp

/-- `decode_cmd(w)`, total on 32-bit words (spec/30_encoding.md R73). With `PRESENT = 0` the buffer is absent and `LEN` is
ignored (R63). -/
def decode (w : Word) : Except IllegalWord Instr :=
  if setbRow.selects w then .ok (.setb (indexField w) (vField w))
  else if snapRow.selects w then .ok .snap
  else if tgrpRow.selects w then .ok .tgrp
  else if deccRow.selects w then .ok (.decc (if vField w then some (lenField w) else none))
  else .error (illegalWord w)

/-- The command an instruction word numbered as spec/opcode_table.json numbers it stands for; a command is one 32-bit word
(spec/30_encoding.md R60), so bits at and above `nbits` are 0 (notes/assumptions/14.md). -/
def tableWord (nbits w : Nat) : Word := BitVec.ofNat 32 (w % 2 ^ nbits)

/-- What the decoder reads from `tableWord`; `none` where it refuses. -/
def decodeTableWord (nbits w : Nat) : Option Instr :=
  match decode (tableWord nbits w) with
  | .ok i => some i
  | .error _ => none

/-! ### The encoder -/

/-- The word with `OP` at 31:28, `RSV = 0`, `V` at 16 and `IMM` at 15:0 (spec/30_encoding.md R60). -/
def assemble (op : BitVec 4) (v : Bool) (imm : BitVec 16) : Word :=
  BitVec.ofNat 32 (op.toNat * 2 ^ 28 + v.toNat * 2 ^ 16 + imm.toNat)

/-- The word of a command: format S, N, N, D (spec/30_encoding.md R61 to R63). The absent buffer has its canonical word
`0x40000000` (R69). For a command that is not well formed the operand is cut to its field. -/
def encode : Instr → Word
  | .setb index value => assemble 0x1#4 value (BitVec.ofInt 16 index)
  | .snap => assemble 0x2#4 false 0#16
  | .tgrp => assemble 0x3#4 false 0#16
  | .decc none => assemble 0x4#4 false 0#16
  | .decc (some len) => assemble 0x4#4 true (BitVec.ofNat 16 len)

/-! ### The text form -/

/-- The one-line spelling of a command (spec/30_encoding.md R69). -/
def Instr.text : Instr → String
  | .setb index value => "SETB " ++ toString index ++ ", " ++ (if value then "1" else "0")
  | .snap => "SNAP"
  | .tgrp => "TGRP"
  | .decc none => "DECC none"
  | .decc (some len) => "DECC " ++ toString len

end Sys2Proof
end

