-- ==== Sys2Proof/Machine/State.lean ====
section
/-!
DEFINITION. The state as plain data: the block's 136 bits (spec/10_state.md R20), the host's side of the boundary that a step
reads (command port, report buffer) and the responses the block has given; the response types; what can stop a step.
-/

namespace Sys2Proof.Machine

/-! ### Responses -/

/-- The error kinds: four of spec/60_exceptions.md R120 and the command decoder's own of R129. -/
inductive ErrorKind where
  /-- SETB: the index is outside 0 to 127. -/
  | outOfRange
  /-- DECC: the buffer is absent. -/
  | missingBuffer
  /-- DECC: the buffer is present and shorter than 15 bytes. -/
  | truncated
  /-- DECC: the selector nibble is neither 0 nor 1. -/
  | unknownVariant
  /-- The command word names no operation. -/
  | illegalCommand
  deriving DecidableEq, Repr

/-- The parameter block selector (spec/41_decoder.md R103). -/
inductive Axis where
  | axisX
  | axisY
  deriving DecidableEq, Repr

/-- The eight fields of a decoded condition report (spec/41_decoder.md R102). Signed fields are integers, unsigned ones
natural numbers, as the spec's formulas give them (notes/assumptions/9.md). -/
structure ConditionReport where
  effectBlockIndex : Nat
  parameterBlockSelector : Axis
  centerPointOffset : Int
  negativeCoefficient : Int
  positiveCoefficient : Int
  negativeSaturation : Nat
  positiveSaturation : Nat
  deadBand : Nat
  deriving DecidableEq, Repr

/-- The payload of an `OK` response (spec/30_encoding.md R71). -/
inductive Payload where
  /-- SETB: the status alone. -/
  | empty
  /-- SNAP: `PK[0]` to `PK[15]`. -/
  | packed (pk : Vector Byte 16)
  /-- TGRP: bit `g` is `GMAP[g]`. -/
  | groups (mask : BitVec 8)
  /-- DECC: the decoded report. -/
  | report (r : ConditionReport)
  deriving DecidableEq, Repr

/-- `OK(payload) | Error(kind)` (spec/00_scope.md R12): a sum, with no payload at all on an error (spec/30_encoding.md R72). -/
inductive Response where
  | ok (p : Payload)
  | error (k : ErrorKind)
  deriving DecidableEq, Repr

/-! ### The host's side -/

/-- What the host can do between two commands, and the command itself (spec/00_scope.md R12). -/
inductive HostAction where
  /-- Assert the reset input (spec/70_reset_and_hazards.md R140). -/
  | assertReset
  /-- Change bytes of the report buffer, each at an offset of the `RB` space (spec/20_memory.md R40, R41). -/
  | changeBuffer (writes : List (Fin Config.bufferSpace × Byte))
  /-- Put a command word on the command port (spec/30_encoding.md R60). -/
  | issue (w : Word)
  deriving DecidableEq, Repr

/-- The bytes the host has driven on the `RB` port: (offset, byte) pairs, offsets strictly rising. -/
abbrev Memory := List Host.Cell

/-! ### What stops a step -/

/-- No command ends in a fault: every command terminates and responds (spec/70_reset_and_hazards.md R151), and an error is a
response (spec/60_exceptions.md R126). So there is no fault reason (notes/assumptions/12.md). -/
inductive Fault where
  deriving DecidableEq, Repr

/-- Why the model gives a step no meaning. -/
inductive Refusal where
  /-- Raised by `exec`'s arm of an instruction without a meaning; there is none. Safe. -/
  | notModelled (mnemonic : String)
  /-- Raised by SETB, SNAP and TGRP on a block that was never reset: the spec asks that a model give these no meaning
  (spec/70_reset_and_hazards.md R142; spec/93_implementation_defined.md U5). Safe. -/
  | neverReset
  deriving DecidableEq, Repr

/-! ### The state -/

/-- The state of the block and of its boundary. The block's own architectural state is `bits` and `gmap` and nothing else
(spec/10_state.md R20). -/
structure State where
  /-- `BITS`: cell `i` is bit `i` (spec/10_state.md R21). -/
  bits : BitVec 128
  /-- `GMAP`: the flag of group `g` is bit `g` (spec/10_state.md R22). -/
  gmap : BitVec 8
  /-- The block has been reset at least once (spec/70_reset_and_hazards.md R142; notes/assumptions/3.md). -/
  wasReset : Bool
  /-- `RB`: what the host drives on the report buffer port (spec/20_memory.md R40, R41). -/
  rb : Memory
  /-- How often the host has changed the report buffer (notes/assumptions/4.md). -/
  rbEpoch : Nat
  /-- What the host does next, in order (spec/00_scope.md R12; notes/assumptions/1.md). -/
  pending : List HostAction
  /-- The responses given so far, the newest first (spec/30_encoding.md R71; notes/assumptions/2.md). -/
  responses : List Response
  deriving DecidableEq, Repr

/-- The state right after reset: `BITS` and `GMAP` are 0 (spec/10_state.md R29). The boundary is empty: nothing is driven,
pending or answered (notes/assumptions/1.md, 2.md, 4.md, 5.md). -/
def State.reset : State where
  bits := 0
  gmap := 0
  wasReset := true
  rb := []
  rbEpoch := 0
  pending := []
  responses := []

end Sys2Proof.Machine
end

