-- ==== Sys2Proof/Machine/Ops.lean ====
section
/-!
DEFINITION. The operations shared by the meanings: reading and writing the report buffer space, the button cells, ending a
command with a response, and reset.
-/

namespace Sys2Proof.Machine

/-! ### The report buffer space -/

/-- The byte the host drives at an offset, if it drives one. -/
def Memory.read : Memory → Nat → Option Byte
  | [], _ => none
  | (b, v) :: m, a => if a = b then some v else Memory.read m a

/-- The host drives byte `v` at offset `a`. The list stays sorted. -/
def Memory.write : Memory → Nat → Byte → Memory
  | [], a, v => [(a, v)]
  | (b, u) :: m, a, v =>
    if a < b then (a, v) :: (b, u) :: m
    else if a = b then (a, v) :: m
    else (b, u) :: Memory.write m a v

/-- The canonical form: offsets strictly rising, every offset inside the space. An offset not listed is not driven, so no
entry repeats what an unlisted offset reads as. -/
def Memory.wf (m : Memory) : Bool :=
  decide (m.Pairwise (fun x y => x.1 < y.1)) && m.all (fun x => decide (x.1 < Config.bufferSpace))

/-- `RB(off)`, the byte at an offset of the report buffer (spec/20_memory.md R41): the byte the host drives there, or the
free value of a lane the host does not drive (notes/assumptions/4.md). -/
def State.rbByte (s : State) (off : Nat) : Byte :=
  (Memory.read s.rb off).getD (Config.undrivenByte s.rbEpoch off)

/-- The host drives the listed bytes, the later of two for one offset standing. -/
def Memory.writeAll (m : Memory) (writes : List (Fin Config.bufferSpace × Byte)) : Memory :=
  writes.foldl (fun m x => Memory.write m x.1.val x.2) m

/-- The host changes the report buffer between two commands (spec/00_scope.md R12). -/
def State.changeBuffer (s : State) (writes : List (Fin Config.bufferSpace × Byte)) : State :=
  { s with rb := Memory.writeAll s.rb writes, rbEpoch := s.rbEpoch + 1 }

/-! ### The button cells -/

/-- `BITS[i]` (spec/00_scope.md R9; spec/10_state.md R21). -/
def State.cell (s : State) (i : Nat) : Bool := s.bits.getLsbD i

/-- Bit `i` of a vector replaced by `v`. -/
def setBit {n : Nat} (b : BitVec n) (i : Nat) (v : Bool) : BitVec n :=
  if v then b ||| BitVec.twoPow n i else b &&& ~~~ (BitVec.twoPow n i)

/-- `BITS[i] <- v` (spec/00_scope.md R9). The old value of the cell is not read (spec/10_state.md R30). -/
def State.writeCell (s : State) (i : Nat) (v : Bool) : State := { s with bits := setBit s.bits i v }

/-! ### Ending a command -/

/-- The response a result stands for. -/
def Response.ofResult : Except ErrorKind Payload → Response
  | .ok p => .ok p
  | .error k => .error k

/-- The response is given; nothing else changes. -/
def State.respond (s : State) (r : Response) : State := { s with responses := r :: s.responses }

/-- A command ends with its one response (spec/30_encoding.md R71). -/
def conclude (r : Except ErrorKind Payload) (s : State) : Host.Outcome State Fault Refusal :=
  .next (s.respond (Response.ofResult r))

/-- `respond OK(payload)` (spec/00_scope.md R11). -/
def respondOk (p : Payload) (s : State) : Host.Outcome State Fault Refusal := conclude (.ok p) s

/-- `raise <Kind>`, the block's only exception mechanism, in full (spec/60_exceptions.md R123 to R127): the response is
`Error(kind)`, no state is written, nothing is saved, no handler is entered, nothing is latched. There is no return from it,
since the block is ready for the next command as after a success (R127). -/
def raise (k : ErrorKind) (s : State) : Host.Outcome State Fault Refusal := conclude (.error k) s

/-- SETB, SNAP and TGRP have a meaning only on a block that has been reset (spec/70_reset_and_hazards.md R142). -/
def requireReset (s : State) (o : Host.Outcome State Fault Refusal) : Host.Outcome State Fault Refusal :=
  if s.wasReset then o else .refused .neverReset

/-! ### Reset -/

/-- The effect of reset (spec/70_reset_and_hazards.md R141): `BITS <- 0` and `GMAP <- 0` together. It has no response (R140).
The host's buffer is not the block's and stays (notes/assumptions/6.md). -/
def State.initialise (s : State) : State := { s with bits := 0, gmap := 0, wasReset := true }

end Sys2Proof.Machine
end

