-- ==== Sys2Proof/Machine/Flags.lean ====
section
/-!
DEFINITION. The group flags `GMAP` (spec/10_state.md R22, R23): reading one, setting one (no operation clears one), and the
set a mask of them stands for.
-/

namespace Sys2Proof.Machine

/-- `GMAP[g]` (spec/00_scope.md R9; spec/10_state.md R22). -/
def State.flag (s : State) (g : Nat) : Bool := s.gmap.getLsbD g

/-- The group of a button: `index div 16` (spec/40_encoder.md R80, R89). -/
def groupOf (index : Nat) : Nat := index / Config.groupSize

/-- `GMAP[g] <- 1` (spec/00_scope.md R9): the only write to a flag that a command makes (spec/10_state.md R23). -/
def State.touchGroup (s : State) (g : Nat) : State := { s with gmap := setBit s.gmap g true }

/-- The set a mask stands for, as the list of its groups in ascending order (spec/40_encoder.md R86, R87). -/
def groupsOfMask (mask : BitVec 8) : List Nat := (List.range Config.groups).filter fun g => mask.getLsbD g

end Sys2Proof.Machine
end

