-- ==== Sys2Proof/Machine/Operands.lean ====
section
/-!
DEFINITION. What the commands compute from their operands: packing the cells into bytes, reading the fields of a condition
report, and the response ports.
-/

namespace Sys2Proof.Machine

/-! ### Packing (SNAP) -/

/-- `PK[k]`: the sum over `b` in 0..7 of `BITS[8k + b] * 2^b` (spec/40_encoder.md R83; spec/20_memory.md R46). -/
def packByte (bits : BitVec 128) (k : Nat) : Byte :=
  BitVec.ofNat 8 (((List.range 8).map fun b => (bits.getLsbD (8 * k + b)).toNat * 2 ^ b).sum)

/-- `PK[0..15]`: all 128 lanes, in index order (spec/40_encoder.md R83, R90). -/
def pack (bits : BitVec 128) : Vector Byte 16 := Vector.ofFn fun k => packByte bits k.val

/-- Unpacking a snapshot: `BITS[i] = PK[i div 8][i mod 8]` (spec/40_encoder.md R85). -/
def unpackCell (pk : Vector Byte 16) (i : Nat) : Bool := (pk[i / 8]?.getD 0).getLsbD (i % 8)

/-! ### Reading a report (DECC) -/

/-- `MemRead(RB, off, 1)` (spec/20_memory.md R44). -/
def memRead1 (rb : Nat → Byte) (off : Nat) : Nat := (rb off).toNat

/-- `MemRead(RB, off, 2) = RB(off) + 256 * RB(off + 1)`: little-endian, whatever the offset (spec/20_memory.md R43, R44,
R47). -/
def memRead2 (rb : Nat → Byte) (off : Nat) : Nat := (rb off).toNat + 256 * (rb (off + 1)).toNat

/-- The low nibble of byte 2: `MemRead(RB, 2, 1) & 0x0F` (spec/41_decoder.md R103; spec/20_memory.md R45). -/
def selectorNibble (rb : Nat → Byte) : Nat := memRead1 rb 2 &&& 0x0F

/-- The strict selector policy: 0 is AxisX, 1 is AxisY, every other value has no axis (spec/41_decoder.md R103). -/
def axisOfNibble (sel : Nat) : Option Axis :=
  if sel = 0 then some .axisX else if sel = 1 then some .axisY else none

/-- The fields at their fixed offsets (spec/41_decoder.md R100, R102; spec/20_memory.md R42). -/
def readReport (rb : Nat → Byte) (axis : Axis) : ConditionReport where
  effectBlockIndex := memRead1 rb 1
  parameterBlockSelector := axis
  centerPointOffset := sext16 (memRead2 rb 3)
  negativeCoefficient := sext16 (memRead2 rb 5)
  positiveCoefficient := sext16 (memRead2 rb 7)
  negativeSaturation := memRead2 rb 9
  positiveSaturation := memRead2 rb 11
  deadBand := memRead2 rb 13

/-- `DECC(buffer)`'s result, its checks in the order absent, length, selector (spec/41_decoder.md R100, R101). -/
def decodeReport (buffer : Option Nat) (rb : Nat → Byte) : Except ErrorKind Payload :=
  match buffer with
  | none => .error .missingBuffer
  | some len =>
    if len < Config.minLength then .error .truncated
    else
      match axisOfNibble (selectorNibble rb) with
      | none => .error .unknownVariant
      | some axis => .ok (.report (readReport rb axis))

/-! ### The response ports -/

/-- `RSP_STATUS[3:0]` of an error kind (spec/60_exceptions.md R121). -/
def ErrorKind.code : ErrorKind → BitVec 4
  | .outOfRange => 0x1#4
  | .missingBuffer => 0x2#4
  | .truncated => 0x3#4
  | .unknownVariant => 0x4#4
  | .illegalCommand => 0xF#4

/-- `RSP_STATUS[3:0]` of a response (spec/60_exceptions.md R121). -/
def Response.status : Response → BitVec 4
  | .ok _ => 0x0#4
  | .error k => k.code

/-- `RSP_PBS`: the wire value of the selector (spec/30_encoding.md R71). -/
def Axis.code : Axis → BitVec 1
  | .axisX => 0#1
  | .axisY => 1#1

/-- `RSP_PACKED`: byte `k` is `RSP_PACKED[8k+7:8k]` (spec/30_encoding.md R71). -/
def packedPort (pk : Vector Byte 16) : BitVec 128 :=
  BitVec.ofNat 128 (pk.toList.foldr (fun b n => b.toNat + 256 * n) 0)

/-- The outputs of the block, all driven together (spec/30_encoding.md R71). -/
structure Ports where
  rspStatus : BitVec 4
  rspPacked : BitVec 128
  rspGroups : BitVec 8
  rspEbi : BitVec 8
  rspPbs : BitVec 1
  rspCpo : BitVec 16
  rspNcoef : BitVec 16
  rspPcoef : BitVec 16
  rspNsat : BitVec 16
  rspPsat : BitVec 16
  rspDband : BitVec 16
  deriving DecidableEq, Repr

/-- Every payload output at 0 (spec/30_encoding.md R72). -/
def Ports.quiet (status : BitVec 4) : Ports := ⟨status, 0, 0, 0, 0, 0, 0, 0, 0, 0, 0⟩

/-- What the outputs carry for a response: the payload where it is valid, 0 elsewhere (spec/30_encoding.md R71, R72). -/
def Response.ports (r : Response) : Ports :=
  match r with
  | .ok (.packed pk) => { Ports.quiet r.status with rspPacked := packedPort pk }
  | .ok (.groups mask) => { Ports.quiet r.status with rspGroups := mask }
  | .ok (.report c) =>
    { Ports.quiet r.status with
      rspEbi := BitVec.ofNat 8 c.effectBlockIndex
      rspPbs := c.parameterBlockSelector.code
      rspCpo := BitVec.ofInt 16 c.centerPointOffset
      rspNcoef := BitVec.ofInt 16 c.negativeCoefficient
      rspPcoef := BitVec.ofInt 16 c.positiveCoefficient
      rspNsat := BitVec.ofNat 16 c.negativeSaturation
      rspPsat := BitVec.ofNat 16 c.positiveSaturation
      rspDband := BitVec.ofNat 16 c.deadBand }
  | .ok .empty => Ports.quiet r.status
  | .error _ => Ports.quiet r.status

end Sys2Proof.Machine
end

