-- ==== Sys2Proof/Machine/Decoder.lean ====
section
/-!
DEFINITION. The command of the Report Decoder: DECC (spec/41_decoder.md).
-/

namespace Sys2Proof.Machine

/-- DECC (spec/41_decoder.md R100): decode the buffer on the `RB` port. It neither reads nor writes the block's state
(spec/10_state.md R27), so it needs no reset (spec/70_reset_and_hazards.md R142). -/
def execDecc (buffer : Option Nat) (s : State) : Host.Outcome State Fault Refusal :=
  conclude (decodeReport buffer s.rbByte) s

end Sys2Proof.Machine
end

