-- ==== Sys2Proof/Machine/Encoder.lean ====
section
/-!
DEFINITION. The commands of the ButtonState Encoder: SETB, SNAP, TGRP (spec/40_encoder.md).
-/

namespace Sys2Proof.Machine

/-- The range check of SETB, on the integer value of the index (spec/40_encoder.md R81). -/
def indexInRange (index : Int) : Bool := !(decide (index < 0) || decide (index ≥ (Config.capacity : Int)))

/-- SETB (spec/40_encoder.md R80): reject an index outside 0 to 127 before anything is written (R81); else write the one cell
and set the flag of its group, whatever the value (R82). -/
def execSetb (index : Int) (value : Bool) (s : State) : Host.Outcome State Fault Refusal :=
  requireReset s <|
    if indexInRange index then
      respondOk .empty ((s.writeCell index.toNat value).touchGroup (groupOf index.toNat))
    else raise .outOfRange s

/-- SNAP (spec/40_encoder.md R83): the packing of `BITS`, computed at this command (R84). -/
def execSnap (s : State) : Host.Outcome State Fault Refusal :=
  requireReset s <| respondOk (.packed (pack s.bits)) s

/-- TGRP (spec/40_encoder.md R86): the mask `GMAP[7:0]`, sampled at this command (R87). -/
def execTgrp (s : State) : Host.Outcome State Fault Refusal :=
  requireReset s <| respondOk (.groups s.gmap) s

end Sys2Proof.Machine
end

