-- ==== Sys2Proof/Machine/Dispatch.lean ====
section
/-!
DEFINITION. One arm per command: its meaning.
-/

namespace Sys2Proof.Machine

def exec (i : Instr) (s : State) : Host.Outcome State Fault Refusal :=
  match i with
  | .setb index value => Sys2Proof.Machine.execSetb index value s
  | .snap => Sys2Proof.Machine.execSnap s
  | .tgrp => Sys2Proof.Machine.execTgrp s
  | .decc buffer => Sys2Proof.Machine.execDecc buffer s

end Sys2Proof.Machine
end

