-- ==== Sys2Proof/Machine/Command.lean ====
section
/-!
DEFINITION. What one action of the host does: a command word is decoded and executed, or answered `IllegalCommand`; reset; a
change of the report buffer (spec/00_scope.md R12).
-/

namespace Sys2Proof.Machine

/-- A command word arrives: it is decoded, and a word that matches no row of the opcode map gets the response
`Error(IllegalCommand)` before any operation is chosen (spec/60_exceptions.md R125, R129; spec/30_encoding.md R66). -/
def runWord (w : Word) (s : State) : Host.Outcome State Fault Refusal :=
  match decode w with
  | .ok i => exec i s
  | .error _ => raise .illegalCommand s

/-- One action of the host (spec/00_scope.md R12). -/
def perform (a : HostAction) (s : State) : Host.Outcome State Fault Refusal :=
  match a with
  | .assertReset => .next s.initialise
  | .changeBuffer writes => .next (s.changeBuffer writes)
  | .issue w => runWord w s

/-- The host's next action is taken from its list. -/
def State.awaiting (s : State) (rest : List HostAction) : State := { s with pending := rest }

/-- One step: the host's next action, one completing before the next begins (spec/20_memory.md R51). With nothing to do the
block holds its state (spec/60_exceptions.md R135; notes/assumptions/8.md). -/
def advance (s : State) : Host.Outcome State Fault Refusal :=
  match s.pending with
  | [] => .next s
  | a :: rest => perform a (s.awaiting rest)

end Sys2Proof.Machine
end

