-- ==== Sys2Proof/Machine/Step.lean ====
section
/-!
DEFINITION. The step of the machine, and how the host of this pipeline places the next command word.
-/

namespace Sys2Proof.Machine

/-- One step of the machine. -/
def step (s : State) : Host.Outcome State Fault Refusal := advance s

/-- The word is put where `step` takes the next command: at the head of the host's list (notes/assumptions/1.md). The block
holds no program (spec/10_state.md R25). -/
def State.withFetchWord (s : State) (nbits w : Nat) : State :=
  s.awaiting (.issue (tableWord nbits w) :: s.pending)

end Sys2Proof.Machine
end

