-- ==== Sys2Proof/Safety.lean ====
section
/-!
DEFINITION. The terms in which claims about runs are made: the invariant of the machine, and what a session's command words say
about the cells and the flags (spec/40_encoder.md R82, R88). None of this is state of the block.
-/

namespace Sys2Proof.Machine

/-- A cell that is on lies in a touched group (spec/40_encoder.md R88(e)). -/
def State.Consistent (s : State) : Prop := ∀ i, i < 128 → s.cell i = true → s.flag (i / 16) = true

/-- The invariant of the machine: what the host drives on `RB` is in canonical form, and once the block has been reset its two
pieces of state agree. Before the first reset the spec gives the block's state no value (spec/70_reset_and_hazards.md
R142), so nothing is said of it. -/
def State.Inv (s : State) : Prop := Memory.wf s.rb = true ∧ (s.wasReset = true → s.Consistent)

/-- The cell and the value of the accepted SETB that a command word stands for; none for any other word and for a SETB that is
rejected (spec/40_encoder.md R81, R82). -/
def acceptedSetb (w : Word) : Option (Nat × Bool) :=
  match decode w with
  | .ok (.setb index value) => if 0 ≤ index ∧ index < 128 then some (index.toNat, value) else none
  | .ok .snap => none
  | .ok .tgrp => none
  | .ok (.decc _) => none
  | .error _ => none

/-- The command words among the host's actions, in order. -/
def issuedWords (actions : List HostAction) : List Word :=
  actions.filterMap fun
    | .issue w => some w
    | .assertReset => none
    | .changeBuffer _ => none

/-- The accepted SETBs of a list of host actions, the latest first. -/
def acceptedLatestFirst (actions : List HostAction) : List (Nat × Bool) :=
  ((issuedWords actions).filterMap acceptedSetb).reverse

/-- The value of the last accepted SETB that named cell `i`, if there was one (spec/40_encoder.md R88(a)). -/
def lastAccepted (actions : List HostAction) (i : Nat) : Option Bool :=
  ((acceptedLatestFirst actions).find? fun x => x.1 == i).map Prod.snd

/-- No reset among the actions: they stay in one session (spec/70_reset_and_hazards.md R144). -/
def WithinSession (actions : List HostAction) : Prop := ∀ a ∈ actions, a ≠ .assertReset

end Sys2Proof.Machine
end

