-- ==== Sys2Proof/Certificates/Slice0/Obligations.lean ====
section
/-!
DEFINITION. The statements about this model, each from the numbered rules of spec/. `{ s with … }` in a conclusion is also the
frame: every field not named is the old one, the report buffer and the host's list included.
-/

open Sys2Proof
open Sys2Proof.Machine

/-! ### Encoding -/

/-- Words written out from the spec's encodings stand for the commands they are written for (spec/95_test_vectors.md 2.1;
spec/30_encoding.md R69). -/
def Obligations.SampleWordsDecode : Prop :=
  decode 0x10010011#32 = .ok (.setb 17 true) ∧ decode 0x1000007F#32 = .ok (.setb 127 false) ∧
  decode 0x1001FFFF#32 = .ok (.setb (-1) true) ∧ decode 0x10008000#32 = .ok (.setb (-32768) false) ∧
  decode 0x20000000#32 = .ok .snap ∧ decode 0x30000000#32 = .ok .tgrp ∧
  decode 0x4001000F#32 = .ok (.decc (some 15)) ∧ decode 0x4001FFFF#32 = .ok (.decc (some 65535)) ∧
  decode 0x40000000#32 = .ok (.decc none) ∧ decode 0x40000014#32 = .ok (.decc none) ∧
  decode 0x00000000#32 = .error .reservedOp ∧ decode 0x20000001#32 = .error .operandBits ∧
  decode 0x10020000#32 = .error .reservedBits ∧ decode 0x48010010#32 = .error .reservedBits

/-- Decoding the word of a well-formed command gives the command back, for every operand the fields can carry
(spec/30_encoding.md R73: the encoding is the inverse). -/
def Obligations.DecodeOfEncodeIsIdentity : Prop :=
  ∀ i : Instr, i.wellFormed = true → decode (encode i) = .ok i

/-- A word that decodes is the word of its command, but for the ignored `LEN` field of an absent buffer; and all 65536 of
those words mean the absent buffer (spec/30_encoding.md R63, R73). -/
def Obligations.OnlyAbsentBufferHasSeveralWords : Prop :=
  (∀ w i, decode w = .ok i →
    i.wellFormed = true ∧ (i ≠ .decc none → encode i = w) ∧
    (i = .decc none → w.extractLsb' 16 16 = 0x4000#16)) ∧
  (∀ w : Word, w.extractLsb' 16 16 = 0x4000#16 → decode w = .ok (.decc none))

/-- The words of spec/30_encoding.md R69: SETB is `0x10000000 + (value << 16) + (index mod 65536)`, a DECC of a present buffer
is `0x40010000 + len`. -/
def Obligations.EncodedWordsAreTheSyntaxTables : Prop :=
  (∀ index value, (encode (.setb index value)).toNat = 0x10000000 + value.toNat * 65536 + (index % 65536).toNat) ∧
  (encode .snap).toNat = 0x20000000 ∧ (encode .tgrp).toNat = 0x30000000 ∧
  (∀ len, len ≤ 65535 → (encode (.decc (some len))).toNat = 0x40010000 + len) ∧
  (encode (.decc none)).toNat = 0x40000000

/-- Where the operands of a selected word come from (spec/30_encoding.md R65): the value and PRESENT from bit 16, the index
from the two's-complement reading of bits 15:0, the length from their unsigned reading. -/
def Obligations.OperandsAreAssembledFromTheirFields : Prop :=
  ∀ w : Word,
    (w &&& 0xFFFE0000#32 = 0x10000000#32 → decode w = .ok (.setb (w.extractLsb' 0 16).toInt (w.getLsbD 16))) ∧
    (w &&& 0xFFFE0000#32 = 0x40000000#32 →
      (w.getLsbD 16 = true → decode w = .ok (.decc (some (w.extractLsb' 0 16).toNat))) ∧
      (w.getLsbD 16 = false → decode w = .ok (.decc none)))

/-- No word matches two rows of the opcode map, and a word decodes exactly when it matches one: the masks and patterns of the
table written out (spec/30_encoding.md R64). -/
def Obligations.OpcodeRowsSelectDisjointWords : Prop :=
  ∀ w : Word,
    ((w &&& 0xFFFE0000#32 = 0x10000000#32) ↔ ∃ index value, decode w = .ok (.setb index value)) ∧
    ((w &&& 0xFFFFFFFF#32 = 0x20000000#32) ↔ decode w = .ok .snap) ∧
    ((w &&& 0xFFFFFFFF#32 = 0x30000000#32) ↔ decode w = .ok .tgrp) ∧
    ((w &&& 0xFFFE0000#32 = 0x40000000#32) ↔ ∃ buffer, decode w = .ok (.decc buffer))

/-- Which words are illegal, and that an illegal word changes no state and is answered `Error(IllegalCommand)`
(spec/30_encoding.md R66). -/
def Obligations.IllegalWordsAreAnsweredWithoutEffect : Prop :=
  (∀ w : Word, (∀ i, decode w ≠ .ok i) ↔
    (w.extractLsb' 28 4 = 0x0#4 ∨ 0x5#4 ≤ w.extractLsb' 28 4) ∨
    ((w.extractLsb' 28 4 = 0x1#4 ∨ w.extractLsb' 28 4 = 0x4#4) ∧ w.extractLsb' 17 11 ≠ 0#11) ∨
    ((w.extractLsb' 28 4 = 0x2#4 ∨ w.extractLsb' 28 4 = 0x3#4) ∧ w.extractLsb' 0 28 ≠ 0#28)) ∧
  (∀ (s : State) (w : Word) (rest : List HostAction), s.pending = .issue w :: rest → (∀ i, decode w ≠ .ok i) →
    step s = .next { s with pending := rest, responses := .error .illegalCommand :: s.responses })

/-! ### SETB -/

/-- SETB whole (spec/40_encoder.md R80): its word; an accepted index writes its one cell and sets its one flag; any other
index is rejected and nothing is written. The premise is the model's reading of spec/70_reset_and_hazards.md R142. -/
def Obligations.SetbWritesOneCellAndOneFlag : Prop :=
  (∀ index value, -32768 ≤ index → index ≤ 32767 →
    decode (BitVec.ofNat 32 (0x10000000 + (value.toNat <<< 16) + (index % 65536).toNat)) = .ok (.setb index value)) ∧
  ∀ (s : State) (index : Int) (value : Bool), s.wasReset = true →
    (0 ≤ index → index < 128 → ∃ t, exec (.setb index value) s = .next t ∧
      t.responses = .ok .empty :: s.responses ∧
      (∀ j : Nat, j < 128 → t.cell j = if (j : Int) = index then value else s.cell j) ∧
      (∀ g : Nat, g < 8 → t.flag g = if (g : Int) = index / 16 then true else s.flag g) ∧
      { t with bits := s.bits, gmap := s.gmap, responses := s.responses } = s) ∧
    (index < 0 ∨ 128 ≤ index →
      exec (.setb index value) s = .next { s with responses := .error .outOfRange :: s.responses })

/-- The range check on the command word (spec/40_encoder.md R81): every INDEX pattern that is 128 or more as an unsigned
number, so every negative index and every index above 127, is rejected with nothing written, and no low bits of it select a
cell; every smaller pattern is accepted and names its own cell. -/
def Obligations.SetbRejectsWithoutClampOrWrap : Prop :=
  ∀ (s : State) (w : Word) (rest : List HostAction), s.wasReset = true → s.pending = .issue w :: rest →
    w &&& 0xFFFE0000#32 = 0x10000000#32 →
    (128 ≤ (w.extractLsb' 0 16).toNat →
      step s = .next { s with pending := rest, responses := .error .outOfRange :: s.responses }) ∧
    ((w.extractLsb' 0 16).toNat < 128 → ∃ t, step s = .next t ∧ t.responses = .ok .empty :: s.responses ∧
      t.cell (w.extractLsb' 0 16).toNat = w.getLsbD 16)

/-- Repeating a SETB leaves the state that doing it once leaves, and gets the same answer (spec/40_encoder.md R80, corner
cases). -/
def Obligations.SetbIsIdempotent : Prop :=
  ∀ (s t : State) (index : Int) (value : Bool), exec (.setb index value) s = .next t →
    ∃ u, exec (.setb index value) t = .next u ∧ u.bits = t.bits ∧ u.gmap = t.gmap ∧
      u.responses.head? = t.responses.head?

/-- Two SETBs to one index leave the value of the later one; SETBs to two indices may be exchanged (spec/20_memory.md R51(c);
spec/40_encoder.md R80). -/
def Obligations.LaterSetbWinsAndOthersCommute : Prop :=
  ∀ (s : State) (i j : Int) (v v' : Bool), s.wasReset = true → 0 ≤ i → i < 128 → 0 ≤ j → j < 128 →
    ∃ a b c d, exec (.setb i v) s = .next a ∧ exec (.setb j v') a = .next b ∧
      exec (.setb j v') s = .next c ∧ exec (.setb i v) c = .next d ∧
      (i = j → b.bits = c.bits ∧ b.gmap = c.gmap) ∧
      (i ≠ j → b.bits = d.bits ∧ b.gmap = d.gmap)

/-! ### SNAP and TGRP -/

/-- SNAP whole (spec/40_encoder.md R83): it answers sixteen bytes, bit `b` of byte `k` being cell `8k + b`, and changes
nothing. -/
def Obligations.SnapPacksTheCells : Prop :=
  decode 0x20000000#32 = .ok .snap ∧
  ∀ s : State, s.wasReset = true → ∃ pk : Vector Byte 16,
    exec .snap s = .next { s with responses := .ok (.packed pk) :: s.responses } ∧
    ∀ (k b : Nat) (hk : k < 16), b < 8 → pk[k].getLsbD b = s.cell (8 * k + b)

/-- The payload of SNAP as one little-endian number is `BITS`, on the port and byte by byte, and unpacking recovers every cell
(spec/40_encoder.md R85). -/
def Obligations.SnapPayloadIsTheCellsAsANumber : Prop :=
  ∀ s : State, s.wasReset = true → ∃ pk : Vector Byte 16,
    exec .snap s = .next { s with responses := .ok (.packed pk) :: s.responses } ∧
    ((List.range 16).map fun k => (pk[k]?.getD 0).toNat * 256 ^ k).sum = s.bits.toNat ∧
    (Response.ok (.packed pk)).ports.rspPacked = s.bits ∧
    ∀ i, i < 128 → (pk[i / 8]?.getD 0).getLsbD (i % 8) = s.cell i

/-- TGRP whole (spec/40_encoder.md R86) and the form of its answer: the mask of the flags, which changes nothing; as a sequence
it lists exactly the touched groups in ascending order (R87). -/
def Obligations.TgrpAnswersTheTouchedGroups : Prop :=
  decode 0x30000000#32 = .ok .tgrp ∧
  ∀ s : State, s.wasReset = true → ∃ mask : BitVec 8,
    exec .tgrp s = .next { s with responses := .ok (.groups mask) :: s.responses } ∧
    (∀ g, g < 8 → mask.getLsbD g = s.flag g) ∧
    (∀ g, g ∈ groupsOfMask mask ↔ g < 8 ∧ s.flag g = true) ∧
    (groupsOfMask mask).Pairwise (· < ·)

/-- No command clears a flag, and reset is the only event that does (spec/10_state.md R23). -/
def Obligations.FlagsAreStickyButForReset : Prop :=
  (∀ (i : Instr) (s t : State) (g : Nat), exec i s = .next t → s.flag g = true → t.flag g = true) ∧
  (∀ (s t : State) (g : Nat), step s = .next t → s.flag g = true → t.flag g = false →
    ∃ rest, s.pending = .assertReset :: rest) ∧
  (∀ (s : State) (rest : List HostAction), s.pending = .assertReset :: rest →
    ∃ t, step s = .next t ∧ ∀ g, t.flag g = false)

/-! ### DECC -/

/-- The eight fields of an accepted report (spec/41_decoder.md R102, with the selector of R103): each 16-bit field is its two
bytes, the byte at the higher offset more significant, signed or unsigned as the table says. Nothing else changes. -/
def Obligations.DeccReadsTheEightFields : Prop :=
  ∀ (s : State) (len : Nat), 15 ≤ len →
    (s.rbByte 2).extractLsb' 0 4 = 0#4 ∨ (s.rbByte 2).extractLsb' 0 4 = 1#4 →
    ∃ r, exec (.decc (some len)) s = .next { s with responses := .ok (.report r) :: s.responses } ∧
      r.effectBlockIndex = (s.rbByte 1).toNat ∧
      r.parameterBlockSelector = (if (s.rbByte 2).extractLsb' 0 4 = 0#4 then .axisX else .axisY) ∧
      r.centerPointOffset = (s.rbByte 4 ++ s.rbByte 3).toInt ∧
      r.negativeCoefficient = (s.rbByte 6 ++ s.rbByte 5).toInt ∧
      r.positiveCoefficient = (s.rbByte 8 ++ s.rbByte 7).toInt ∧
      r.negativeSaturation = (s.rbByte 10 ++ s.rbByte 9).toNat ∧
      r.positiveSaturation = (s.rbByte 12 ++ s.rbByte 11).toNat ∧
      r.deadBand = (s.rbByte 14 ++ s.rbByte 13).toNat

/-- The order of DECC's checks (spec/41_decoder.md R101): absent buffer, then length whatever byte 2 holds, then selector; the
fourteen other nibbles are all rejected, and a buffer that passes is answered with a report (R103). -/
def Obligations.DeccChecksInOrder : Prop :=
  ∀ s : State,
    exec (.decc none) s = .next { s with responses := .error .missingBuffer :: s.responses } ∧
    (∀ len, len < 15 →
      exec (.decc (some len)) s = .next { s with responses := .error .truncated :: s.responses }) ∧
    (∀ len, 15 ≤ len → 2#4 ≤ (s.rbByte 2).extractLsb' 0 4 →
      exec (.decc (some len)) s = .next { s with responses := .error .unknownVariant :: s.responses }) ∧
    (∀ len, 15 ≤ len → (s.rbByte 2).extractLsb' 0 4 < 2#4 → ∃ r,
      exec (.decc (some len)) s = .next { s with responses := .ok (.report r) :: s.responses })

/-- What DECC depends on (spec/20_memory.md R49): presence, `LEN < 15`, and, for a long enough buffer, the bytes at offsets 1
and 3 to 14 and the low nibble of byte 2. Not byte 0, not the high nibble of byte 2, not the tail, nothing of the block. -/
def Obligations.DeccDependsOnlyOnItsFields : Prop :=
  ∀ (s s' : State) (buffer buffer' : Option Nat),
    (buffer = none ↔ buffer' = none) →
    (∀ len len', buffer = some len → buffer' = some len' →
      (len < 15 ↔ len' < 15) ∧
      (15 ≤ len → s.rbByte 1 = s'.rbByte 1 ∧ (s.rbByte 2).extractLsb' 0 4 = (s'.rbByte 2).extractLsb' 0 4 ∧
        ∀ off, 3 ≤ off → off ≤ 14 → s.rbByte off = s'.rbByte off)) →
    ∃ r, exec (.decc buffer) s = .next { s with responses := r :: s.responses } ∧
      exec (.decc buffer') s' = .next { s' with responses := r :: s'.responses }

/-- The outputs after an accepted report (spec/30_encoding.md R71, R72): each field port carries the field's bytes, the status
is OK, and the outputs of the other commands are 0. -/
def Obligations.DeccDrivesItsPorts : Prop :=
  ∀ (s : State) (len : Nat), 15 ≤ len → (s.rbByte 2).extractLsb' 1 3 = 0#3 →
    ∃ r, exec (.decc (some len)) s = .next { s with responses := r :: s.responses } ∧
      r.ports = {
        rspStatus := 0x0#4, rspPacked := 0, rspGroups := 0
        rspEbi := s.rbByte 1, rspPbs := (s.rbByte 2).extractLsb' 0 1
        rspCpo := s.rbByte 4 ++ s.rbByte 3, rspNcoef := s.rbByte 6 ++ s.rbByte 5
        rspPcoef := s.rbByte 8 ++ s.rbByte 7, rspNsat := s.rbByte 10 ++ s.rbByte 9
        rspPsat := s.rbByte 12 ++ s.rbByte 11, rspDband := s.rbByte 14 ++ s.rbByte 13 }

/-- The outputs after an OK of the encoder's commands (spec/30_encoding.md R71, R72): after an accepted SETB the status alone,
after SNAP `RSP_PACKED[i]` is cell `i`, after TGRP `RSP_GROUPS[g]` is flag `g`, with status OK and 0 on every payload output
that does not belong to the command. The premise is the model's reading of R142 (notes/assumptions/3.md). -/
def Obligations.EncoderCommandsDriveTheirPorts : Prop :=
  ∀ s : State, s.wasReset = true →
    (∀ index value, 0 ≤ index → index < 128 → ∃ t r, exec (.setb index value) s = .next t ∧
      t.responses = r :: s.responses ∧
      r.ports = {
        rspStatus := 0x0#4, rspPacked := 0, rspGroups := 0, rspEbi := 0, rspPbs := 0, rspCpo := 0, rspNcoef := 0
        rspPcoef := 0, rspNsat := 0, rspPsat := 0, rspDband := 0 }) ∧
    (∃ r packed, exec .snap s = .next { s with responses := r :: s.responses } ∧
      (∀ i, i < 128 → packed.getLsbD i = s.cell i) ∧
      r.ports = {
        rspStatus := 0x0#4, rspPacked := packed, rspGroups := 0, rspEbi := 0, rspPbs := 0, rspCpo := 0, rspNcoef := 0
        rspPcoef := 0, rspNsat := 0, rspPsat := 0, rspDband := 0 }) ∧
    (∃ r groups, exec .tgrp s = .next { s with responses := r :: s.responses } ∧
      (∀ g, g < 8 → groups.getLsbD g = s.flag g) ∧
      r.ports = {
        rspStatus := 0x0#4, rspPacked := 0, rspGroups := groups, rspEbi := 0, rspPbs := 0, rspCpo := 0, rspNcoef := 0
        rspPcoef := 0, rspNsat := 0, rspPsat := 0, rspDband := 0 })

/-! ### Errors and responses -/

/-- The exact cause of each error kind of the operations, and that no other command or operand raises one
(spec/60_exceptions.md R120). -/
def Obligations.ErrorCausesAreExact : Prop :=
  ∀ (i : Instr) (s t : State) (k : ErrorKind), exec i s = .next t →
    (t.responses.head? = some (.error k) ↔
      (k = .outOfRange ∧ ∃ index value, i = .setb index value ∧ (index < 0 ∨ 128 ≤ index)) ∨
      (k = .missingBuffer ∧ i = .decc none) ∨
      (k = .truncated ∧ ∃ len, i = .decc (some len) ∧ len < 15) ∨
      (k = .unknownVariant ∧ ∃ len, i = .decc (some len) ∧ 15 ≤ len ∧ 2 ≤ ((s.rbByte 2).extractLsb' 0 4).toNat))

/-- A command word that is answered with an error has changed nothing: neither the block nor what the host holds
(spec/60_exceptions.md R123). -/
def Obligations.ErrorsLeaveTheStateUntouched : Prop :=
  ∀ (s t : State) (w : Word) (rest : List HostAction) (k : ErrorKind), s.pending = .issue w :: rest →
    step s = .next t → t.responses.head? = some (.error k) →
    t = { s with pending := rest, responses := .error k :: s.responses }

/-- The status codes, and that 0x5 to 0xE are never produced (spec/60_exceptions.md R121). -/
def Obligations.StatusCodesAreTheTables : Prop :=
  (∀ p, (Response.ok p).ports.rspStatus = 0x0#4) ∧
  (Response.error .outOfRange).ports.rspStatus = 0x1#4 ∧ (Response.error .missingBuffer).ports.rspStatus = 0x2#4 ∧
  (Response.error .truncated).ports.rspStatus = 0x3#4 ∧ (Response.error .unknownVariant).ports.rspStatus = 0x4#4 ∧
  (Response.error .illegalCommand).ports.rspStatus = 0xF#4 ∧
  ∀ r : Response, ¬ (0x5#4 ≤ r.ports.rspStatus ∧ r.ports.rspStatus ≤ 0xE#4)

/-- With an error status every payload output is 0 (spec/60_exceptions.md R124). -/
def Obligations.ErrorsDriveNoPayload : Prop :=
  ∀ k : ErrorKind, (Response.error k).ports =
    { rspStatus := k.code, rspPacked := 0, rspGroups := 0, rspEbi := 0, rspPbs := 0, rspCpo := 0, rspNcoef := 0,
      rspPcoef := 0, rspNsat := 0, rspPsat := 0, rspDband := 0 }

/-- A step adds at most one response, exactly one when it takes a command word, and never alters one already given
(spec/30_encoding.md R71; spec/41_decoder.md R108; spec/70_reset_and_hazards.md R140). -/
def Obligations.OneResponsePerCommandNeverAltered : Prop :=
  ∀ s t : State, step s = .next t →
    (∀ w rest, s.pending = .issue w :: rest → ∃ r, t.responses = r :: s.responses) ∧
    ((∀ w rest, s.pending ≠ .issue w :: rest) → t.responses = s.responses)

/-- On a block that was reset a step always answers, whatever the host does next; and on every block, reset or not, a step with
nothing pending holds the whole state (spec/60_exceptions.md R135). That a block without a command takes a step at all, and the
step of a buffer change, are the model's (notes/assumptions/8.md, 15.md); that a command answers is
spec/70_reset_and_hazards.md R151. -/
def Obligations.StepIsTotalAfterReset : Prop :=
  (∀ s : State, s.wasReset = true → ∃ t, step s = .next t ∧ t.wasReset = true) ∧
  (∀ s : State, s.pending = [] → step s = .next s)

/-- On a block that was reset every command word is answered, and `n` of them get exactly `n` responses
(spec/70_reset_and_hazards.md R151). -/
def Obligations.EveryCommandAnswers : Prop :=
  (∀ (s : State) (w : Word) (rest : List HostAction), s.wasReset = true → s.pending = .issue w :: rest →
    ∃ t r, step s = .next t ∧ t.responses = r :: s.responses ∧ t.pending = rest) ∧
  (∀ (s : State) (ws : List Word), s.wasReset = true → s.pending = ws.map .issue →
    ∃ t : State, Host.Core.run core ws.length s = .next t ∧ t.pending = [] ∧
      ∃ new, t.responses = new ++ s.responses ∧ new.length = ws.length)

/-! ### Frames and independence -/

/-- What a command leaves unchanged (spec/10_state.md R30): every byte the host drives, the host's list, every cell and every
flag but those an accepted SETB names; and it adds one response. -/
def Obligations.CommandFrame : Prop :=
  ∀ (i : Instr) (s t : State), exec i s = .next t →
    (∀ off, Memory.read t.rb off = Memory.read s.rb off) ∧ (∀ off, t.rbByte off = s.rbByte off) ∧
    t.rbEpoch = s.rbEpoch ∧ t.pending = s.pending ∧ t.wasReset = s.wasReset ∧
    (∃ r, t.responses = r :: s.responses) ∧
    (∀ j : Nat, j < 128 → (∀ value, i ≠ .setb j value) → t.cell j = s.cell j) ∧
    (∀ g : Nat, g < 8 → (∀ index value, i = .setb index value → index / 16 ≠ g) → t.flag g = s.flag g)

/-- A command's response and its effect depend on the block and its operands alone: not on earlier responses, so not on
earlier errors, and not on later commands (spec/00_scope.md R13; spec/60_exceptions.md R127). -/
def Obligations.CommandsIgnoreHistory : Prop :=
  ∀ (i : Instr) (s s' : State), s.bits = s'.bits → s.gmap = s'.gmap → s.wasReset = s'.wasReset →
    (∀ off, s.rbByte off = s'.rbByte off) →
    (exec i s = .refused .neverReset ∧ exec i s' = .refused .neverReset) ∨
    (∃ r bits gmap, exec i s = .next { s with bits := bits, gmap := gmap, responses := r :: s.responses } ∧
      exec i s' = .next { s' with bits := bits, gmap := gmap, responses := r :: s'.responses })

/-- The two units share nothing (spec/10_state.md R30; spec/00_scope.md R2): DECC answers the same for every encoder state, and
the encoder's commands do the same whatever the report buffer holds. -/
def Obligations.UnitsAreIndependent : Prop :=
  (∀ (s : State) (buffer : Option Nat), ∃ r, ∀ bits gmap wasReset,
    exec (.decc buffer) { s with bits := bits, gmap := gmap, wasReset := wasReset } =
      .next { s with bits := bits, gmap := gmap, wasReset := wasReset, responses := r :: s.responses }) ∧
  (∀ (i : Instr) (s : State), (∀ buffer, i ≠ .decc buffer) → s.wasReset = true → ∃ r bits gmap, ∀ rb rbEpoch,
    exec i { s with rb := rb, rbEpoch := rbEpoch } =
      .next { s with rb := rb, rbEpoch := rbEpoch, bits := bits, gmap := gmap, responses := r :: s.responses })

/-- SNAP, TGRP and DECC may be put anywhere between other commands: a command after one of them answers and does what it would
have answered and done before it (spec/20_memory.md R51(d)). -/
def Obligations.ReadsDoNotDisturb : Prop :=
  ∀ (i j : Instr) (s t : State), (∀ index value, i ≠ .setb index value) → exec i s = .next t →
    (exec j s = .refused .neverReset ∧ exec j t = .refused .neverReset) ∨
    (∃ r bits gmap, exec j s = .next { s with bits := bits, gmap := gmap, responses := r :: s.responses } ∧
      exec j t = .next { t with bits := bits, gmap := gmap, responses := r :: t.responses })

/-! ### The step, the host and reset -/

/-- A step runs the decoded command: on a command word that decodes to `i` it is `exec i` with the word taken from the host's
list (spec/00_scope.md R12; spec/30_encoding.md R73). That the word this pipeline places with `withFetchWord` is the one that runs
next is the model's choice and no rule of the spec (notes/assumptions/1.md, 14.md). -/
def Obligations.StepRunsTheDecodedCommand : Prop :=
  (∀ (s : State) (w : Word) (rest : List HostAction) (i : Instr), s.pending = .issue w :: rest → decode w = .ok i →
    step s = exec i { s with pending := rest }) ∧
  (∀ (s : State) (w : Nat) (i : Instr), w < 2 ^ 32 → decode (BitVec.ofNat 32 w) = .ok i →
    step (s.withFetchWord 32 w) = exec i s)

/-- Reset, from any state, clears all cells and all flags in one step and has no response (spec/70_reset_and_hazards.md
R141). -/
def Obligations.ResetClearsCellsAndFlags : Prop :=
  ∀ (s : State) (rest : List HostAction), s.pending = .assertReset :: rest →
    ∃ t, step s = .next t ∧ (∀ i, t.cell i = false) ∧ (∀ g, t.flag g = false) ∧
      t.responses = s.responses ∧ t.pending = rest

/-- After reset, and in the reset state, everything is 0: the first SNAP answers sixteen zero bytes and the first TGRP the empty
set (spec/10_state.md R29). -/
def Obligations.FirstReadsAfterResetAreZero : Prop :=
  (State.reset.bits = 0 ∧ State.reset.gmap = 0) ∧
  ∀ (s : State) (rest : List HostAction),
    s.pending = .assertReset :: .issue 0x20000000#32 :: .issue 0x30000000#32 :: rest →
    ∃ t : State, Host.Core.run core 3 s = .next t ∧
      t.responses = .ok (.groups 0x00#8) :: .ok (.packed (Vector.replicate 16 0x00#8)) :: s.responses

/-- Before the first reset the encoder's commands have no meaning, and DECC has the meaning it has after reset
(spec/70_reset_and_hazards.md R142). -/
def Obligations.NeverResetBlockRefusesTheEncoder : Prop :=
  State.reset.wasReset = true ∧
  ∀ s : State, s.wasReset = false →
    (∀ index value, exec (.setb index value) s = .refused .neverReset) ∧
    exec .snap s = .refused .neverReset ∧ exec .tgrp s = .refused .neverReset ∧
    ∀ buffer, ∃ r, exec (.decc buffer) s = .next { s with responses := r :: s.responses } ∧
      exec (.decc buffer) s.initialise = .next { s.initialise with responses := r :: s.responses }

/-- A change of the report buffer by the host touches no cell, no flag and no response, and leaves a never-reset block never reset;
each byte is the last one the host put at its offset, every other one stays (spec/00_scope.md R12; spec/20_memory.md R40, R41).
The form of the action is the model's choice (notes/assumptions/15.md). -/
def Obligations.BufferChangeTouchesOnlyItsBytes : Prop :=
  ∀ (s : State) (writes : List (Fin Config.bufferSpace × Byte)) (rest : List HostAction),
    s.pending = .changeBuffer writes :: rest →
    ∃ t, step s = .next t ∧ t.bits = s.bits ∧ t.gmap = s.gmap ∧ t.wasReset = s.wasReset ∧ t.responses = s.responses ∧
      t.pending = rest ∧
      ∀ off, Memory.read t.rb off =
        match writes.reverse.find? (fun x => x.1.val == off) with
        | some x => some x.2
        | none => Memory.read s.rb off

/-! ### Invariants and sessions -/

/-- The reset state meets the invariant. That a cell which is on lies in a touched group follows from spec/10_state.md R29; that
what the host drives on `RB` is in canonical form rests on the model's choice that nothing is driven there
(notes/assumptions/5.md). -/
def Obligations.ResetMeetsTheInvariant : Prop := State.reset.Inv

/-- Every step keeps the invariant: the bytes the host drives stay in canonical form, and a cell that is on lies in a touched
group (spec/40_encoder.md R88(e)). -/
def Obligations.StepKeepsTheInvariant : Prop :=
  ∀ s t : State, s.Inv → step s = .next t → t.Inv

/-- The set law (spec/40_encoder.md R88(a), S1): in every session, whatever the state before its reset and whatever else the host
does in it, SNAP's payload unpacked has at `i` the value of the last accepted SETB that named `i`, or 0. -/
def Obligations.SnapShowsTheLastAcceptedValues : Prop :=
  ∀ (s : State) (actions : List HostAction), WithinSession actions →
    s.pending = .assertReset :: (actions ++ [.issue 0x20000000#32]) →
    ∃ (t : State) (pk : Vector Byte 16), Host.Core.run core (actions.length + 2) s = .next t ∧
      t.responses.head? = some (.ok (.packed pk)) ∧
      ∀ i, i < 128 → unpackCell pk i = (lastAccepted actions i).getD false

/-- The group law (spec/40_encoder.md R82, R88(b)): in every session a bit of TGRP's mask is set exactly when some accepted SETB of
the session named an index of the group, whatever its value and whether or not the cell changed. -/
def Obligations.TgrpShowsTheGroupsOfAcceptedSetbs : Prop :=
  ∀ (s : State) (actions : List HostAction), WithinSession actions →
    s.pending = .assertReset :: (actions ++ [.issue 0x30000000#32]) →
    ∃ (t : State) (mask : BitVec 8), Host.Core.run core (actions.length + 2) s = .next t ∧
      t.responses.head? = some (.ok (.groups mask)) ∧
      ∀ g : Nat, g < 8 → (mask.getLsbD g = true ↔
        ∃ w index value, .issue w ∈ actions ∧ decode w = .ok (.setb index value) ∧
          16 * (g : Int) ≤ index ∧ index ≤ 16 * (g : Int) + 15)
end

