-- ==== Sys2Proof/Laws/Encoding.lean ====
section
/-!
SUPPORT. Masks, fields and assembled words as arithmetic: what lets a claim about an encoding be closed by linear arithmetic.
-/

namespace Sys2Proof

/-- The mask of formats S and D keeps the bits 31:17. -/
theorem and_operandMask (w : Word) : w &&& 0xFFFE0000#32 = (w >>> 17) <<< 17 := by
  apply BitVec.eq_of_getLsbD_eq
  intro i hi
  have hm : (0xFFFE0000#32).getLsbD i = decide (17 ≤ i) := by
    interval_cases i <;> decide
  rw [BitVec.getLsbD_and, hm]
  by_cases h : i < 17
  · simp [h]
  · have h17 : 17 + (i - 17) = i := by omega
    simp [h, h17, hi]
    omega

/-- A word under the mask of formats S and D, as a number. -/
theorem toNat_and_operandMask (w : Word) : (w &&& 0xFFFE0000#32).toNat = w.toNat / 2 ^ 17 * 2 ^ 17 := by
  have := w.isLt
  rw [and_operandMask]
  simp only [BitVec.toNat_shiftLeft, BitVec.toNat_ushiftRight, Nat.shiftRight_eq_div_pow, Nat.shiftLeft_eq]
  omega

theorem and_allOnes (w : Word) : w &&& 0xFFFFFFFF#32 = w := by
  simpa using BitVec.and_allOnes (x := w)

theorem setbRow_selects (w : Word) : setbRow.selects w = true ↔ w.toNat / 2 ^ 17 = 0x10000000 / 2 ^ 17 := by
  have h := toNat_and_operandMask w
  simp only [OpcodeRow.selects, setbRow, beq_iff_eq, ← BitVec.toNat_inj, h]
  norm_num
  omega

theorem deccRow_selects (w : Word) : deccRow.selects w = true ↔ w.toNat / 2 ^ 17 = 0x40000000 / 2 ^ 17 := by
  have h := toNat_and_operandMask w
  simp only [OpcodeRow.selects, deccRow, beq_iff_eq, ← BitVec.toNat_inj, h]
  norm_num
  omega

theorem snapRow_selects (w : Word) : snapRow.selects w = true ↔ w = 0x20000000#32 := by
  simp only [OpcodeRow.selects, snapRow, beq_iff_eq, and_allOnes]

theorem tgrpRow_selects (w : Word) : tgrpRow.selects w = true ↔ w = 0x30000000#32 := by
  simp only [OpcodeRow.selects, tgrpRow, beq_iff_eq, and_allOnes]

theorem toNat_assemble (op : BitVec 4) (v : Bool) (imm : BitVec 16) :
    (assemble op v imm).toNat = op.toNat * 2 ^ 28 + v.toNat * 2 ^ 16 + imm.toNat := by
  have h1 := op.isLt
  have h2 := imm.isLt
  have h3 := Bool.toNat_lt v
  simp only [assemble, BitVec.toNat_ofNat]
  omega

theorem toNat_opField (w : Word) : (opField w).toNat = w.toNat / 2 ^ 28 := by
  have := w.isLt
  simp only [opField, BitVec.extractLsb'_toNat, Nat.shiftRight_eq_div_pow]
  omega

theorem toNat_rsvField (w : Word) : (rsvField w).toNat = w.toNat / 2 ^ 17 % 2 ^ 11 := by
  simp only [rsvField, BitVec.extractLsb'_toNat, Nat.shiftRight_eq_div_pow]

theorem toNat_immField (w : Word) : (immField w).toNat = w.toNat % 2 ^ 16 := by
  simp [immField]

theorem vField_eq (w : Word) : vField w = decide (w.toNat / 2 ^ 16 % 2 = 1) := by
  simp only [vField, BitVec.getLsbD, Nat.testBit_eq_decide_div_mod_eq]

theorem immField_assemble (op : BitVec 4) (v : Bool) (imm : BitVec 16) : immField (assemble op v imm) = imm := by
  have := imm.isLt
  apply BitVec.eq_of_toNat_eq
  rw [toNat_immField, toNat_assemble]
  omega

theorem vField_assemble (op : BitVec 4) (v : Bool) (imm : BitVec 16) : vField (assemble op v imm) = v := by
  have := imm.isLt
  rw [vField_eq, toNat_assemble]
  cases v <;> simp <;> omega

/-! ### The decoder, arm by arm -/

theorem decode_of_setbRow {w : Word} (h : setbRow.selects w = true) : decode w = .ok (.setb (indexField w) (vField w)) := by
  simp [decode, h]

theorem decode_of_deccRow {w : Word} (h : deccRow.selects w = true) :
    decode w = .ok (.decc (if vField w then some (lenField w) else none)) := by
  have hd := (deccRow_selects w).1 h
  have h1 : setbRow.selects w = false := by
    rw [Bool.eq_false_iff, ne_eq, setbRow_selects]
    omega
  have h2 : snapRow.selects w = false := by
    rw [Bool.eq_false_iff, ne_eq, snapRow_selects]
    rintro rfl
    simp at hd
  have h3 : tgrpRow.selects w = false := by
    rw [Bool.eq_false_iff, ne_eq, tgrpRow_selects]
    rintro rfl
    simp at hd
  simp [decode, h1, h2, h3, h]

/-- Every way a word can decode. -/
theorem decode_cases {w : Word} {i : Instr} (h : decode w = .ok i) :
    (setbRow.selects w = true ∧ i = .setb (indexField w) (vField w)) ∨
    (w = 0x20000000#32 ∧ i = .snap) ∨ (w = 0x30000000#32 ∧ i = .tgrp) ∨
    (deccRow.selects w = true ∧ i = .decc (if vField w then some (lenField w) else none)) := by
  unfold decode at h
  split_ifs at h with h1 h2 h3 h4 h5
  · exact .inl ⟨h1, by simpa [eq_comm] using h⟩
  · exact .inr (.inl ⟨(snapRow_selects w).1 h2, by simpa [eq_comm] using h⟩)
  · exact .inr (.inr (.inl ⟨(tgrpRow_selects w).1 h3, by simpa [eq_comm] using h⟩))
  · exact .inr (.inr (.inr ⟨h4, by simpa [eq_comm, h5] using h⟩))
  · exact .inr (.inr (.inr ⟨h4, by simpa [eq_comm, h5] using h⟩))

/-- `sext_16` is the two's-complement reading. -/
theorem sext16_toNat (v : BitVec 16) : sext16 v.toNat = v.toInt := by
  have := v.isLt
  unfold sext16
  rw [BitVec.toInt_eq_toNat_cond]
  split_ifs <;> omega

theorem sext16_range {v : Nat} (h : v < 65536) : -32768 ≤ sext16 v ∧ sext16 v ≤ 32767 := by
  unfold sext16
  split_ifs <;> omega

end Sys2Proof
end

