-- ==== Sys2Proof/Laws/State.lean ====
section
/-!
SUPPORT. What each update of the state does to each field, one lemma per field per update.
-/

namespace Sys2Proof.Machine.State

variable (s : State)

@[simp] theorem reset_bits : State.reset.bits = 0 := rfl
@[simp] theorem reset_gmap : State.reset.gmap = 0 := rfl
@[simp] theorem reset_wasReset : State.reset.wasReset = true := rfl
@[simp] theorem reset_rb : State.reset.rb = [] := rfl
@[simp] theorem reset_rbEpoch : State.reset.rbEpoch = 0 := rfl
@[simp] theorem reset_pending : State.reset.pending = [] := rfl
@[simp] theorem reset_responses : State.reset.responses = [] := rfl

@[simp] theorem respond_bits (r : Response) : (s.respond r).bits = s.bits := rfl
@[simp] theorem respond_gmap (r : Response) : (s.respond r).gmap = s.gmap := rfl
@[simp] theorem respond_wasReset (r : Response) : (s.respond r).wasReset = s.wasReset := rfl
@[simp] theorem respond_rb (r : Response) : (s.respond r).rb = s.rb := rfl
@[simp] theorem respond_rbEpoch (r : Response) : (s.respond r).rbEpoch = s.rbEpoch := rfl
@[simp] theorem respond_pending (r : Response) : (s.respond r).pending = s.pending := rfl
@[simp] theorem respond_responses (r : Response) : (s.respond r).responses = r :: s.responses := rfl

@[simp] theorem writeCell_bits (i : Nat) (v : Bool) : (s.writeCell i v).bits = setBit s.bits i v := rfl
@[simp] theorem writeCell_gmap (i : Nat) (v : Bool) : (s.writeCell i v).gmap = s.gmap := rfl
@[simp] theorem writeCell_wasReset (i : Nat) (v : Bool) : (s.writeCell i v).wasReset = s.wasReset := rfl
@[simp] theorem writeCell_rb (i : Nat) (v : Bool) : (s.writeCell i v).rb = s.rb := rfl
@[simp] theorem writeCell_rbEpoch (i : Nat) (v : Bool) : (s.writeCell i v).rbEpoch = s.rbEpoch := rfl
@[simp] theorem writeCell_pending (i : Nat) (v : Bool) : (s.writeCell i v).pending = s.pending := rfl
@[simp] theorem writeCell_responses (i : Nat) (v : Bool) : (s.writeCell i v).responses = s.responses := rfl

@[simp] theorem touchGroup_bits (g : Nat) : (s.touchGroup g).bits = s.bits := rfl
@[simp] theorem touchGroup_gmap (g : Nat) : (s.touchGroup g).gmap = setBit s.gmap g true := rfl
@[simp] theorem touchGroup_wasReset (g : Nat) : (s.touchGroup g).wasReset = s.wasReset := rfl
@[simp] theorem touchGroup_rb (g : Nat) : (s.touchGroup g).rb = s.rb := rfl
@[simp] theorem touchGroup_rbEpoch (g : Nat) : (s.touchGroup g).rbEpoch = s.rbEpoch := rfl
@[simp] theorem touchGroup_pending (g : Nat) : (s.touchGroup g).pending = s.pending := rfl
@[simp] theorem touchGroup_responses (g : Nat) : (s.touchGroup g).responses = s.responses := rfl

@[simp] theorem initialise_bits : s.initialise.bits = 0 := rfl
@[simp] theorem initialise_gmap : s.initialise.gmap = 0 := rfl
@[simp] theorem initialise_wasReset : s.initialise.wasReset = true := rfl
@[simp] theorem initialise_rb : s.initialise.rb = s.rb := rfl
@[simp] theorem initialise_rbEpoch : s.initialise.rbEpoch = s.rbEpoch := rfl
@[simp] theorem initialise_pending : s.initialise.pending = s.pending := rfl
@[simp] theorem initialise_responses : s.initialise.responses = s.responses := rfl

variable (writes : List (Fin Config.bufferSpace × Byte)) (rest : List HostAction)

@[simp] theorem changeBuffer_bits : (s.changeBuffer writes).bits = s.bits := rfl
@[simp] theorem changeBuffer_gmap : (s.changeBuffer writes).gmap = s.gmap := rfl
@[simp] theorem changeBuffer_wasReset : (s.changeBuffer writes).wasReset = s.wasReset := rfl
@[simp] theorem changeBuffer_rb : (s.changeBuffer writes).rb = Memory.writeAll s.rb writes := rfl
@[simp] theorem changeBuffer_rbEpoch : (s.changeBuffer writes).rbEpoch = s.rbEpoch + 1 := rfl
@[simp] theorem changeBuffer_pending : (s.changeBuffer writes).pending = s.pending := rfl
@[simp] theorem changeBuffer_responses : (s.changeBuffer writes).responses = s.responses := rfl

@[simp] theorem awaiting_bits : (s.awaiting rest).bits = s.bits := rfl
@[simp] theorem awaiting_gmap : (s.awaiting rest).gmap = s.gmap := rfl
@[simp] theorem awaiting_wasReset : (s.awaiting rest).wasReset = s.wasReset := rfl
@[simp] theorem awaiting_rb : (s.awaiting rest).rb = s.rb := rfl
@[simp] theorem awaiting_rbEpoch : (s.awaiting rest).rbEpoch = s.rbEpoch := rfl
@[simp] theorem awaiting_pending : (s.awaiting rest).pending = rest := rfl
@[simp] theorem awaiting_responses : (s.awaiting rest).responses = s.responses := rfl

end Sys2Proof.Machine.State
end

