-- ==== Sys2Proof/Laws/Ops.lean ====
section
/-!
SUPPORT. One lemma for each shared operation: the report buffer space, a bit of a vector, packing, decoding a report, and how a
command ends. Provers cite these in place of unfolding the operation.
-/

namespace Sys2Proof.Machine

/-! ### The report buffer space -/

theorem Memory.read_write_same (m : Memory) (a : Nat) (v : Byte) : Memory.read (Memory.write m a v) a = some v := by
  induction m with
  | nil => simp [Memory.write, Memory.read]
  | cons x m ih =>
    obtain ⟨b, u⟩ := x
    rcases Nat.lt_trichotomy a b with h | h | h
    · simp [Memory.write, Memory.read, h]
    · simp [Memory.write, Memory.read, h]
    · simp [Memory.write, Memory.read, Nat.ne_of_gt h, Nat.not_lt_of_gt h, ih]

theorem Memory.read_write_other (m : Memory) {a c : Nat} (v : Byte) (h : c ≠ a) :
    Memory.read (Memory.write m a v) c = Memory.read m c := by
  induction m with
  | nil => simp [Memory.write, Memory.read, h]
  | cons x m ih =>
    obtain ⟨b, u⟩ := x
    rcases Nat.lt_trichotomy a b with hb | hb | hb
    · simp [Memory.write, Memory.read, hb, h]
    · subst hb
      simp [Memory.write, Memory.read, h]
    · simp [Memory.write, Memory.read, Nat.ne_of_gt hb, Nat.not_lt_of_gt hb, ih]

/-- Every entry after a write is the written one or was there. -/
theorem Memory.mem_write {m : Memory} {a : Nat} {v : Byte} {x : Host.Cell} (h : x ∈ Memory.write m a v) :
    x = (a, v) ∨ x ∈ m := by
  induction m with
  | nil => simpa [Memory.write] using h
  | cons y m ih =>
    obtain ⟨b, u⟩ := y
    unfold Memory.write at h
    split_ifs at h
    · simpa using h
    · rcases List.mem_cons.1 h with h | h
      · exact .inl h
      · exact .inr (List.mem_cons_of_mem _ h)
    · rcases List.mem_cons.1 h with h | h
      · exact .inr (h ▸ List.mem_cons_self)
      · exact (ih h).imp_right (List.mem_cons_of_mem _)

theorem Memory.wf_iff (m : Memory) :
    Memory.wf m = true ↔ m.Pairwise (fun x y => x.1 < y.1) ∧ ∀ x ∈ m, x.1 < Config.bufferSpace := by
  simp [Memory.wf]

theorem Memory.pairwise_write {m : Memory} (h : m.Pairwise (fun x y => x.1 < y.1)) (a : Nat) (v : Byte) :
    (Memory.write m a v).Pairwise (fun x y => x.1 < y.1) := by
  induction m with
  | nil => simp [Memory.write]
  | cons y m ih =>
    obtain ⟨b, u⟩ := y
    obtain ⟨hy, hm⟩ := List.pairwise_cons.1 h
    unfold Memory.write
    split_ifs with h1 h2
    · refine List.pairwise_cons.2 ⟨fun x hx => ?_, h⟩
      rcases List.mem_cons.1 hx with rfl | hx
      · exact h1
      · exact Nat.lt_trans h1 (hy x hx)
    · subst h2
      exact List.pairwise_cons.2 ⟨hy, hm⟩
    · refine List.pairwise_cons.2 ⟨fun x hx => ?_, ih hm⟩
      rcases Memory.mem_write hx with rfl | hx
      · exact Nat.lt_of_le_of_ne (Nat.le_of_not_lt h1) (Ne.symm h2)
      · exact hy x hx

/-- A write inside the space keeps the canonical form. -/
theorem Memory.wf_write {m : Memory} (h : Memory.wf m = true) {a : Nat} (ha : a < Config.bufferSpace) (v : Byte) :
    Memory.wf (Memory.write m a v) = true := by
  rw [Memory.wf_iff] at h ⊢
  refine ⟨Memory.pairwise_write h.1 a v, fun x hx => ?_⟩
  rcases Memory.mem_write hx with rfl | hx
  · exact ha
  · exact h.2 x hx

/-- A change of the buffer keeps the canonical form. -/
theorem Memory.wf_writeAll {m : Memory} (h : Memory.wf m = true) (writes : List (Fin Config.bufferSpace × Byte)) :
    Memory.wf (Memory.writeAll m writes) = true := by
  induction writes generalizing m with
  | nil => exact h
  | cons x writes ih => exact ih (Memory.wf_write h x.1.isLt x.2)

theorem Memory.wf_reset : Memory.wf State.reset.rb = true := by decide

/-! ### One bit of a vector -/

theorem getLsbD_setBit {n : Nat} (b : BitVec n) (i : Nat) (v : Bool) {j : Nat} (hj : j < n) :
    (setBit b i v).getLsbD j = if j = i then v else b.getLsbD j := by
  by_cases h : j = i
  · subst h
    cases v <;> simp [setBit, hj]
  · cases v <;> simp [setBit, h, hj]

theorem State.cell_writeCell (s : State) (i : Nat) (v : Bool) {j : Nat} (hj : j < 128) :
    (s.writeCell i v).cell j = if j = i then v else s.cell j := getLsbD_setBit s.bits i v hj

theorem State.flag_touchGroup (s : State) (g : Nat) {k : Nat} (hk : k < 8) :
    (s.touchGroup g).flag k = if k = g then true else s.flag k := getLsbD_setBit s.gmap g true hk

@[simp] theorem State.cell_touchGroup (s : State) (g i : Nat) : (s.touchGroup g).cell i = s.cell i := rfl
@[simp] theorem State.flag_writeCell (s : State) (i : Nat) (v : Bool) (g : Nat) : (s.writeCell i v).flag g = s.flag g := rfl
@[simp] theorem State.cell_respond (s : State) (r : Response) (i : Nat) : (s.respond r).cell i = s.cell i := rfl
@[simp] theorem State.flag_respond (s : State) (r : Response) (g : Nat) : (s.respond r).flag g = s.flag g := rfl
@[simp] theorem State.rbByte_respond (s : State) (r : Response) (off : Nat) : (s.respond r).rbByte off = s.rbByte off := rfl

/-! ### How a command ends -/

/-- A command that concludes answers a next state: the old one with one more response. -/
theorem conclude_eq_next {r : Except ErrorKind Payload} {s t : State} :
    conclude r s = .next t ↔ t = s.respond (Response.ofResult r) := by
  simp [conclude, eq_comm]

/-- A guarded command that answers a next state ran on a block that had been reset. -/
theorem requireReset_eq_next {s t : State} {o : Host.Outcome State Fault Refusal} :
    requireReset s o = .next t ↔ s.wasReset = true ∧ o = .next t := by
  cases h : s.wasReset <;> simp [requireReset, h]

theorem requireReset_of_wasReset {s : State} (h : s.wasReset = true) (o : Host.Outcome State Fault Refusal) :
    requireReset s o = o := by simp [requireReset, h]

theorem requireReset_of_never {s : State} (h : s.wasReset = false) (o : Host.Outcome State Fault Refusal) :
    requireReset s o = .refused .neverReset := by simp [requireReset, h]

/-- The range check of SETB, as the spec words it. -/
theorem indexInRange_iff (index : Int) : indexInRange index = true ↔ 0 ≤ index ∧ index < 128 := by
  simp [indexInRange, Config.capacity]

/-! ### Decoding a report -/

/-- Every result DECC can have, with its condition. -/
theorem decodeReport_cases (buffer : Option Nat) (rb : Nat → Byte) :
    (buffer = none ∧ decodeReport buffer rb = .error .missingBuffer) ∨
    (∃ len, buffer = some len ∧ len < 15 ∧ decodeReport buffer rb = .error .truncated) ∨
    (∃ len, buffer = some len ∧ 15 ≤ len ∧ axisOfNibble (selectorNibble rb) = none ∧
      decodeReport buffer rb = .error .unknownVariant) ∨
    (∃ len axis, buffer = some len ∧ 15 ≤ len ∧ axisOfNibble (selectorNibble rb) = some axis ∧
      decodeReport buffer rb = .ok (.report (readReport rb axis))) := by
  cases buffer with
  | none => exact .inl ⟨rfl, rfl⟩
  | some len =>
    by_cases h : len < 15
    · exact .inr (.inl ⟨len, rfl, h, by simp [decodeReport, Config.minLength, h]⟩)
    · cases ha : axisOfNibble (selectorNibble rb) with
      | none =>
        exact .inr (.inr (.inl ⟨len, rfl, Nat.le_of_not_lt h, rfl, by simp [decodeReport, Config.minLength, h, ha]⟩))
      | some axis =>
        exact .inr (.inr (.inr ⟨len, axis, rfl, Nat.le_of_not_lt h, rfl, by
          simp [decodeReport, Config.minLength, h, ha]⟩))

/-- The mask `& 0x0F` keeps the remainder modulo 16. -/
theorem selectorNibble_eq_mod (rb : Nat → Byte) : selectorNibble rb = (rb 2).toNat % 16 := by
  simpa [selectorNibble, memRead1] using Nat.and_two_pow_sub_one_eq_mod (rb 2).toNat 4

theorem memRead2_lt (rb : Nat → Byte) (off : Nat) : memRead2 rb off < 65536 := by
  have h1 := (rb off).isLt
  have h2 := (rb (off + 1)).isLt
  unfold memRead2
  omega

/-! ### Packing -/

/-- The weighted sum of the eight low bits of a number is its remainder modulo 256. -/
theorem sum_testBit_eight (n : Nat) : ((List.range 8).map fun b => (n.testBit b).toNat * 2 ^ b).sum = n % 256 := by
  have hd : ∀ x : Nat, (decide (x % 2 = 1)).toNat = x % 2 := fun x => by
    rcases Nat.mod_two_eq_zero_or_one x with h | h <;> simp [h]
  simp only [List.range_succ, List.range_zero, Nat.testBit_eq_decide_div_mod_eq, hd, List.map_append, List.map_cons,
    List.map_nil, List.sum_append, List.sum_cons, List.sum_nil]
  omega

/-- A packed byte is a slice of the cells: `PK[k] = BITS[8k+7 : 8k]` (spec/20_memory.md R46). -/
theorem packByte_eq_slice (bits : BitVec 128) (k : Nat) : packByte bits k = bits.extractLsb' (8 * k) 8 := by
  apply BitVec.eq_of_toNat_eq
  have hl : ((List.range 8).map fun b => (bits.getLsbD (8 * k + b)).toNat * 2 ^ b) =
      (List.range 8).map fun b => ((bits.toNat / 2 ^ (8 * k)).testBit b).toNat * 2 ^ b :=
    List.map_congr_left fun b _ => by simp [BitVec.getLsbD, ← Nat.shiftRight_eq_div_pow, Nat.testBit_shiftRight]
  rw [packByte, hl, sum_testBit_eight, BitVec.toNat_ofNat, BitVec.extractLsb'_toNat, Nat.shiftRight_eq_div_pow]
  omega

theorem pack_getElem (bits : BitVec 128) (k : Nat) (hk : k < 16) : (pack bits)[k] = packByte bits k := by
  simp [pack]

end Sys2Proof.Machine
end

