-- ==== Sys2Proof/Laws/Exec.lean ====
section
/-!
SUPPORT. Said once: what one command can do, and what one step can do. Every claim about all commands or all steps starts
from these two lemmas.
-/

namespace Sys2Proof.Machine

/-! ### One lemma for each meaning -/

theorem exec_setb_accepted {s : State} (hr : s.wasReset = true) {index : Int} (h0 : 0 ≤ index) (h1 : index < 128)
    (value : Bool) : exec (.setb index value) s =
      .next (((s.writeCell index.toNat value).touchGroup (groupOf index.toNat)).respond (.ok .empty)) := by
  simp [exec, execSetb, requireReset_of_wasReset hr, (indexInRange_iff index).2 ⟨h0, h1⟩, respondOk, conclude,
    Response.ofResult]

theorem exec_setb_rejected {s : State} (hr : s.wasReset = true) {index : Int} (h : index < 0 ∨ 128 ≤ index)
    (value : Bool) : exec (.setb index value) s = .next (s.respond (.error .outOfRange)) := by
  have hi : indexInRange index = false := by
    rw [Bool.eq_false_iff, ne_eq, indexInRange_iff]
    omega
  simp [exec, execSetb, requireReset_of_wasReset hr, hi, raise, conclude, Response.ofResult]

theorem exec_snap_of_wasReset {s : State} (hr : s.wasReset = true) :
    exec .snap s = .next (s.respond (.ok (.packed (pack s.bits)))) := by
  simp [exec, execSnap, requireReset_of_wasReset hr, respondOk, conclude, Response.ofResult]

theorem exec_tgrp_of_wasReset {s : State} (hr : s.wasReset = true) :
    exec .tgrp s = .next (s.respond (.ok (.groups s.gmap))) := by
  simp [exec, execTgrp, requireReset_of_wasReset hr, respondOk, conclude, Response.ofResult]

theorem exec_decc (buffer : Option Nat) (s : State) :
    exec (.decc buffer) s = .next (s.respond (Response.ofResult (decodeReport buffer s.rbByte))) := rfl

/-! ### All commands and all steps at once -/

/-- What a command that answers a next state has done: an accepted SETB, or one response and nothing else. -/
theorem exec_cases {i : Instr} {s t : State} (h : exec i s = .next t) :
    (∃ index value, i = .setb index value ∧ s.wasReset = true ∧ 0 ≤ index ∧ index < 128 ∧
      t = ((s.writeCell index.toNat value).touchGroup (groupOf index.toNat)).respond (.ok .empty)) ∨
    (∃ index value, i = .setb index value ∧ s.wasReset = true ∧ (index < 0 ∨ 128 ≤ index) ∧
      t = s.respond (.error .outOfRange)) ∨
    (i = .snap ∧ s.wasReset = true ∧ t = s.respond (.ok (.packed (pack s.bits)))) ∨
    (i = .tgrp ∧ s.wasReset = true ∧ t = s.respond (.ok (.groups s.gmap))) ∨
    (∃ buffer, i = .decc buffer ∧ t = s.respond (Response.ofResult (decodeReport buffer s.rbByte))) := by
  cases i with
  | setb index value =>
    obtain ⟨hr, h⟩ := requireReset_eq_next.1 h
    by_cases hi : indexInRange index = true
    · rw [if_pos hi] at h
      obtain ⟨h0, h1⟩ := (indexInRange_iff index).1 hi
      exact .inl ⟨index, value, rfl, hr, h0, h1, conclude_eq_next.1 h⟩
    · rw [if_neg hi] at h
      refine .inr (.inl ⟨index, value, rfl, hr, ?_, conclude_eq_next.1 h⟩)
      rw [indexInRange_iff] at hi
      omega
  | snap =>
    obtain ⟨hr, h⟩ := requireReset_eq_next.1 h
    exact .inr (.inr (.inl ⟨rfl, hr, conclude_eq_next.1 h⟩))
  | tgrp =>
    obtain ⟨hr, h⟩ := requireReset_eq_next.1 h
    exact .inr (.inr (.inr (.inl ⟨rfl, hr, conclude_eq_next.1 h⟩)))
  | decc buffer => exact .inr (.inr (.inr (.inr ⟨buffer, rfl, conclude_eq_next.1 h⟩)))

/-- What a step that answers a next state has done. -/
theorem step_cases {s t : State} (h : step s = .next t) :
    (s.pending = [] ∧ t = s) ∨
    (∃ rest, s.pending = .assertReset :: rest ∧ t = (s.awaiting rest).initialise) ∨
    (∃ writes rest, s.pending = .changeBuffer writes :: rest ∧ t = (s.awaiting rest).changeBuffer writes) ∨
    (∃ w rest i, s.pending = .issue w :: rest ∧ decode w = .ok i ∧ exec i (s.awaiting rest) = .next t) ∨
    (∃ w rest e, s.pending = .issue w :: rest ∧ decode w = .error e ∧
      t = (s.awaiting rest).respond (.error .illegalCommand)) := by
  unfold step advance at h
  cases hp : s.pending with
  | nil =>
    simp only [hp] at h
    exact .inl ⟨rfl, by simpa [eq_comm] using h⟩
  | cons a rest =>
    simp only [hp] at h
    cases a with
    | assertReset => exact .inr (.inl ⟨rest, rfl, by simpa [perform, eq_comm] using h⟩)
    | changeBuffer writes => exact .inr (.inr (.inl ⟨writes, rest, rfl, by simpa [perform, eq_comm] using h⟩))
    | issue w =>
      cases hd : decode w with
      | ok i => exact .inr (.inr (.inr (.inl ⟨w, rest, i, rfl, hd, by simpa [perform, runWord, hd] using h⟩)))
      | error e =>
        refine .inr (.inr (.inr (.inr ⟨w, rest, e, rfl, hd, ?_⟩)))
        have h' : raise .illegalCommand (s.awaiting rest) = .next t := by simpa [perform, runWord, hd] using h
        exact conclude_eq_next.1 h'

end Sys2Proof.Machine
end

