-- ==== Sys2Proof/Laws/PerInstr.lean ====
section
/-!
SUPPORT. A statement about every command as syntax: its word is one its own row of the opcode map selects
(spec/30_encoding.md R64).
-/

namespace Sys2Proof.Laws.EncodesRow

/-- The word of a command carries the fixed bits of the command's row, whatever its operands. -/
def Statement (i : Instr) : Prop := i.row.selects (encode i) = true

theorem setb (index : Int) (value : Bool) : Statement (.setb index value) := by
  have := (BitVec.ofInt 16 index).isLt
  have := Bool.toNat_lt value
  refine (setbRow_selects _).2 ?_
  rw [encode, toNat_assemble]
  simp only [BitVec.toNat_ofNat]
  omega

theorem snap : Statement .snap := by unfold Statement; decide

theorem tgrp : Statement .tgrp := by unfold Statement; decide

theorem decc (buffer : Option Nat) : Statement (.decc buffer) := by
  cases buffer with
  | none => unfold Statement; decide
  | some len =>
    have := (BitVec.ofNat 16 len).isLt
    refine (deccRow_selects _).2 ?_
    rw [encode, toNat_assemble]
    simp only [Bool.toNat_true, BitVec.toNat_ofNat]
    omega

end Sys2Proof.Laws.EncodesRow
end

