-- ==== Sys2Proof/Laws/Run.lean ====
section
/-!
SUPPORT. Runs of several steps, one step at a time, and the induction over a run, once.
-/

namespace Sys2Proof.Machine

/-- The first step of a run. -/
theorem run_succ_of_next {k : Nat} {s t : State} (h : step s = .next t) :
    Host.Core.run core (k + 1) s = Host.Core.run core k t := by
  have hM : ∀ (M : Host.Core) (k : Nat) (s t : M.State), M.step s = .next t →
      Host.Core.run M (k + 1) s = Host.Core.run M k t := fun M k s t h => by simp only [Host.Core.run, h]
  exact hM core k s t h

theorem run_zero (s : State) : Host.Core.run core 0 s = .next s := rfl

/-- What every step keeps, every run keeps. -/
theorem run_keeps {P : State → Prop} (hP : ∀ s t, P s → step s = .next t → P t) {k : Nat} {s t : State} (hs : P s)
    (h : Host.Core.run core k s = .next t) : P t := by
  induction k generalizing s with
  | zero =>
    rw [run_zero] at h
    cases h
    exact hs
  | succ k ih =>
    cases hx : step s with
    | next u =>
      rw [run_succ_of_next hx] at h
      exact ih (hP s u hs hx) h
    | fault r => nomatch r
    | refused r =>
      have hM : ∀ (M : Host.Core) (s : M.State) (r : M.Refusal), M.step s = .refused r →
          Host.Core.run M (k + 1) s = .refused r := fun M s r h => by simp only [Host.Core.run, h]
      have hr : Host.Core.run core (k + 1) s = .refused r := hM core s r hx
      rw [hr] at h
      nomatch h

/-- A step that takes a command word which decodes runs the command. -/
theorem step_of_decode {s : State} {w : Word} {rest : List HostAction} {i : Instr} (hp : s.pending = .issue w :: rest)
    (hd : decode w = .ok i) : step s = exec i (s.awaiting rest) := by
  simp [step, advance, hp, perform, runWord, hd]

end Sys2Proof.Machine
end

