-- ==== Sys2Proof/Tests/Slice0.lean ====
section
/-!
SUPPORT. Small tests, with expected results from spec/95_test_vectors.md, and a witness for every statement of
Certificates/Slice0/Obligations.lean that has hypotheses.
-/

namespace Sys2Proof.Tests

open Sys2Proof.Machine

/-! ### Helpers -/

/-- The next state of an outcome. -/
def next (o : Host.Outcome State Fault Refusal) : Option State :=
  match o with
  | .next t => some t
  | .fault _ => none
  | .refused _ => none

/-- The response a command gives. -/
def answer (i : Instr) (s : State) : Option Response := (next (exec i s)).bind fun t => t.responses.head?

/-- The two pieces of the block's state after a command. -/
def after (i : Instr) (s : State) : Option (BitVec 128 × BitVec 8) := (next (exec i s)).map fun t => (t.bits, t.gmap)

/-- The reset state with bytes on the `RB` port, offset 0 first. -/
def driven (bytes : List Byte) : State := { State.reset with rb := (List.range bytes.length).zip bytes }

/-- A block in the middle of a session: cells and flags as given. -/
def block (bits : BitVec 128) (gmap : BitVec 8) : State := { State.reset with bits := bits, gmap := gmap }

/-- Cells 3 and 64 on (spec/95_test_vectors.md 2.2, last row). -/
def cells3and64 : State := block 0x10000000000000008#128 0x11#8

/-- The report of spec/95_test_vectors.md S5. -/
def reportS5 : List Byte := [0x00, 0x05, 0x01, 0x10, 0x00, 0xF0, 0xFF, 0x00, 0x01, 0x00, 0x80, 0xFF, 0x7F, 0x34, 0x12]

/-- S5 with other ignored bytes: byte 0, the high nibble of byte 2, a tail (spec/41_decoder.md R104, R105). -/
def reportS5Ignored : List Byte :=
  [0x7B, 0x05, 0xA1, 0x10, 0x00, 0xF0, 0xFF, 0x00, 0x01, 0x00, 0x80, 0xFF, 0x7F, 0x34, 0x12, 0xAA]

/-- S5 with selector nibble 2 (spec/95_test_vectors.md S7). -/
def reportS7 : List Byte := [0x00, 0x05, 0x02, 0x10, 0x00, 0xF0, 0xFF, 0x00, 0x01, 0x00, 0x80, 0xFF, 0x7F, 0x34, 0x12]

/-! ### WellFormed: an ill-formed term for each check -/

theorem test_wellFormed_index_too_small : (Instr.setb (-32769) true).wellFormed = false := by decide
theorem test_wellFormed_index_too_large : (Instr.setb 32768 true).wellFormed = false := by decide
theorem test_wellFormed_length_too_large : (Instr.decc (some 65536)).wellFormed = false := by decide
theorem test_wellFormed_boundary : (Instr.setb (-32768) true).wellFormed = true ∧ (Instr.setb 32767 false).wellFormed = true ∧
    (Instr.decc (some 65535)).wellFormed = true := by decide

/-! ### Decoding: words written bit by bit from spec/30_encoding.md R61 to R63, and the vectors of 2.1 -/

/-- `SETB 17, 1`: 0001, eleven zeros, V = 1, INDEX = 17. -/
theorem test_decode_setb_bits : decode 0b00010000000000010000000000010001#32 = .ok (.setb 17 true) := by decide
/-- `SNAP`: 0010 and 28 zeros. -/
theorem test_decode_snap_bits : decode 0b00100000000000000000000000000000#32 = .ok .snap := by decide
/-- `TGRP`: 0011 and 28 zeros. -/
theorem test_decode_tgrp_bits : decode 0b00110000000000000000000000000000#32 = .ok .tgrp := by decide
/-- `DECC 15`: 0100, eleven zeros, PRESENT = 1, LEN = 15. -/
theorem test_decode_decc_bits : decode 0b01000000000000010000000000001111#32 = .ok (.decc (some 15)) := by decide
/-- `SETB -128, 1` and `SETB 32767, 1`. -/
theorem test_decode_signed_index :
    decode 0x1001FF80#32 = .ok (.setb (-128) true) ∧ decode 0x10017FFF#32 = .ok (.setb 32767 true) := by decide
/-- `DECC none` with LEN = 20: the length is ignored. -/
theorem test_decode_absent_ignores_length : decode 0x40000014#32 = .ok (.decc none) := by decide
theorem test_decode_zero_word : decode 0x00000000#32 = .error .reservedOp := by decide
theorem test_decode_snap_with_operand : decode 0x2000FFFF#32 = .error .operandBits := by decide
theorem test_decode_reserved_bits : decode 0x1FFF0000#32 = .error .reservedBits := by decide
theorem test_decode_table_word : decodeTableWord 32 0x1001007F = some (.setb 127 true) := by decide
theorem test_encode_words : encode (.setb (-1) true) = 0x1001FFFF#32 ∧ encode (.decc (some 65535)) = 0x4001FFFF#32 ∧
    encode (.decc none) = 0x40000000#32 := by decide
/-- The rows of the opcode map differ where both masks look, so no word matches two (spec/30_encoding.md R64). -/
theorem test_rows_disjoint : opcodeTable.Pairwise (fun a b => a.pattern &&& a.mask &&& b.mask ≠ b.pattern &&& a.mask &&& b.mask) := by
  decide
theorem test_text : (Instr.setb (-5) true).text = "SETB -5, 1" ∧ (Instr.decc none).text = "DECC none" := by decide

/-! ### SETB (spec/95_test_vectors.md 2.2) -/

/-- A cell going off leaves its flag: `SETB 100, 0` with cell 100 on. -/
theorem test_setb_off_keeps_flag : after (.setb 100 false) (block 0x10000000000000000000000000#128 0x40#8) =
    some (0, 0x40#8) := by decide
/-- Index 255 has 127 in its low 7 bits and is rejected. -/
theorem test_setb_rejects_255 : answer (.setb 255 true) cells3and64 = some (.error .outOfRange) ∧
    after (.setb 255 true) cells3and64 = some (0x10000000000000008#128, 0x11#8) := by decide

/-! ### SNAP and TGRP (spec/95_test_vectors.md 2.3) -/

/-- Cells 0, 9, 127. -/
theorem test_snap : answer .snap (block 0x80000000000000000000000000000201#128 0x81#8) =
    some (.ok (.packed #v[0x01, 0x02, 0, 0, 0, 0, 0, 0, 0, 0, 0, 0, 0, 0, 0, 0x80])) := by decide
/-- Cells 31, 32, 63, 112 have mask `0x8E`, the groups 1, 2, 3, 7. -/
theorem test_tgrp : answer .tgrp (block 0x10000000000008000000180000000#128 0x8E#8) = some (.ok (.groups 0x8E#8)) ∧
    groupsOfMask 0x8E#8 = [1, 2, 3, 7] := by decide

/-- The outputs after SNAP and TGRP with cells 3 and 64 on: the payload's own output, 0 on the others (spec/30_encoding.md R71, R72). -/
theorem test_ports_of_snap_and_tgrp :
    (answer .snap cells3and64).map Response.ports = some { Ports.quiet 0 with rspPacked := 0x10000000000000008#128 } ∧
    (answer .tgrp cells3and64).map Response.ports = some { Ports.quiet 0 with rspGroups := 0x11#8 } := by decide

/-! ### DECC (spec/95_test_vectors.md S5, V5) -/

/-- The source's own example. -/
theorem test_decc_s5 : answer (.decc (some 15)) (driven reportS5) =
    some (.ok (.report ⟨5, .axisY, 16, -16, 256, 32768, 32767, 4660⟩)) := by decide
/-- Extremes of the signed and unsigned readings. -/
theorem test_decc_v5 : answer (.decc (some 15))
    (driven [0x07, 0x80, 0x00, 0x00, 0x80, 0xFF, 0x7F, 0x01, 0x00, 0xFF, 0xFF, 0x00, 0x00, 0x00, 0x01]) =
    some (.ok (.report ⟨128, .axisX, -32768, 32767, 1, 65535, 0, 256⟩)) := by decide
/-- Length is checked before the nibble (V12). -/
theorem test_decc_v12 : answer (.decc (some 3)) (driven [0x00, 0x00, 0x05]) = some (.error .truncated) := by decide

/-! ### The step (spec/95_test_vectors.md, Program 4, steps 4 and 10) -/

theorem test_step_illegal_word : (next (step (cells3and64.withFetchWord 32 0x50000000))).map
    (fun t => (t.bits, t.gmap, t.responses)) = some (0x10000000000000008#128, 0x11#8, [.error .illegalCommand]) := by decide
theorem test_step_reset : (next (step (cells3and64.awaiting [.assertReset]))).map (fun t => (t.bits, t.gmap, t.responses)) =
    some (0, 0, []) := by decide
/-- The block has no fetch: with nothing pending it holds its state (spec/60_exceptions.md R135). -/
theorem test_step_idle : next (step cells3and64) = some cells3and64 := by decide
theorem test_change_buffer : (next (step (State.reset.awaiting [.changeBuffer [(2, 0x01), (0, 0x07), (2, 0x03)]]))).map State.rb =
    some [(0, 0x07), (2, 0x03)] := by decide

/-! ### Witnesses: concrete states and operands that meet the hypotheses of each statement, clause by clause -/

theorem witness_DecodeOfEncodeIsIdentity : ∃ i j : Instr, i.wellFormed = true ∧ j.wellFormed = true ∧ i ≠ j :=
  ⟨.setb (-32768) true, .decc (some 65535), by decide⟩

theorem witness_OnlyAbsentBufferHasSeveralWords :
    decode 0x1001FFFF#32 = .ok (.setb (-1) true) ∧ (Instr.setb (-1) true) ≠ .decc none ∧
    decode 0x4000FFFF#32 = .ok (.decc none) ∧ (0x4000FFFF#32).extractLsb' 16 16 = 0x4000#16 := by decide

theorem witness_EncodedWordsAreTheSyntaxTables : ∃ len : Nat, len ≤ 65535 ∧ 65535 ≤ len := ⟨65535, by decide⟩

theorem witness_OperandsAreAssembledFromTheirFields :
    (0x1001FFFF#32 &&& 0xFFFE0000#32 = 0x10000000#32) ∧
    (0x4001FFFF#32 &&& 0xFFFE0000#32 = 0x40000000#32 ∧ (0x4001FFFF#32).getLsbD 16 = true) ∧
    (0x4000FFFF#32 &&& 0xFFFE0000#32 = 0x40000000#32 ∧ (0x4000FFFF#32).getLsbD 16 = false) := by decide

theorem witness_IllegalWordsAreAnsweredWithoutEffect : ∃ (s : State) (w : Word) (rest : List HostAction),
    s.pending = .issue w :: rest ∧ ∀ i, decode w ≠ .ok i := by
  refine ⟨cells3and64.awaiting [.issue 0x50000000#32], 0x50000000#32, [], rfl, fun i h => ?_⟩
  have : decode 0x50000000#32 = .error .reservedOp := by decide
  rw [this] at h
  nomatch h

theorem witness_SetbWritesOneCellAndOneFlag :
    ((-32768 : Int) ≤ -32768 ∧ (32767 : Int) ≤ 32767) ∧ cells3and64.wasReset = true ∧
    ((0 : Int) ≤ 0 ∧ (0 : Int) < 128) ∧ ((0 : Int) ≤ 127 ∧ (127 : Int) < 128) ∧ ((-1 : Int) < 0) ∧ ((128 : Int) ≤ 128) := by
  decide

theorem witness_SetbRejectsWithoutClampOrWrap : ∃ (s s' : State) (w w' : Word),
    s.wasReset = true ∧ s.pending = [.issue w] ∧ w &&& 0xFFFE0000#32 = 0x10000000#32 ∧ 128 ≤ (w.extractLsb' 0 16).toNat ∧
    s'.wasReset = true ∧ s'.pending = [.issue w'] ∧ w' &&& 0xFFFE0000#32 = 0x10000000#32 ∧
    (w'.extractLsb' 0 16).toNat < 128 :=
  ⟨cells3and64.awaiting [.issue 0x10010080#32], cells3and64.awaiting [.issue 0x1001007F#32], 0x10010080#32, 0x1001007F#32,
    by decide⟩

theorem witness_SetbIsIdempotent : ∃ t, exec (.setb 127 true) cells3and64 = .next t ∧ t.cell 127 = true := ⟨_, rfl, by decide⟩

theorem witness_LaterSetbWinsAndOthersCommute : ∃ (s : State) (i j k : Int), s.wasReset = true ∧ 0 ≤ i ∧ i < 128 ∧ 0 ≤ j ∧
    j < 128 ∧ i = j ∧ 0 ≤ k ∧ k < 128 ∧ i ≠ k := ⟨cells3and64, 127, 127, 0, by decide⟩

theorem witness_SnapPacksTheCells : cells3and64.wasReset = true ∧ 15 < 16 ∧ 7 < 8 ∧ cells3and64.cell 64 = true := by decide

theorem witness_SnapPayloadIsTheCellsAsANumber : cells3and64.wasReset = true ∧ 127 < 128 := by decide

theorem witness_TgrpAnswersTheTouchedGroups : cells3and64.wasReset = true ∧ 4 < 8 ∧ cells3and64.flag 4 = true := by decide

theorem witness_FlagsAreStickyButForReset :
    (∃ (i : Instr) (s t : State), exec i s = .next t ∧ s.flag 4 = true) ∧
    (∃ s t : State, step s = .next t ∧ s.flag 4 = true ∧ t.flag 4 = false) ∧
    (∃ s : State, s.pending = [.assertReset] ∧ s.flag 4 = true) :=
  ⟨⟨.tgrp, cells3and64, _, rfl, by decide⟩, ⟨cells3and64.awaiting [.assertReset], _, rfl, by decide⟩,
    ⟨cells3and64.awaiting [.assertReset], by decide⟩⟩

theorem witness_DeccReadsTheEightFields :
    15 ≤ 15 ∧ ((driven (reportS5.set 2 0xF0)).rbByte 2).extractLsb' 0 4 = 0#4 ∧ ((driven reportS5).rbByte 2).extractLsb' 0 4 = 1#4 := by
  decide

theorem witness_DeccChecksInOrder : 14 < 15 ∧ 15 ≤ 15 ∧ 2#4 ≤ ((driven reportS7).rbByte 2).extractLsb' 0 4 ∧
    ((driven reportS5).rbByte 2).extractLsb' 0 4 < 2#4 := by decide

theorem witness_DeccDependsOnlyOnItsFields :
    ((none : Option Nat) = none ↔ (none : Option Nat) = none) ∧ (14 < 15 ↔ 0 < 15) ∧
    (15 < 15 ↔ 16 < 15) ∧ (driven reportS5).rbByte 1 = (driven reportS5Ignored).rbByte 1 ∧
    ((driven reportS5).rbByte 2).extractLsb' 0 4 = ((driven reportS5Ignored).rbByte 2).extractLsb' 0 4 ∧
    (driven reportS5).rbByte 0 ≠ (driven reportS5Ignored).rbByte 0 ∧
    ∀ off, off < 15 → 3 ≤ off → (driven reportS5).rbByte off = (driven reportS5Ignored).rbByte off := by decide

theorem witness_DeccDrivesItsPorts : 15 ≤ 15 ∧ ((driven reportS5Ignored).rbByte 2).extractLsb' 1 3 = 0#3 := by decide

theorem witness_ErrorCausesAreExact :
    (∃ t, exec (.setb 128 true) cells3and64 = .next t ∧ t.responses.head? = some (.error .outOfRange)) ∧
    (∃ t, exec (.decc none) cells3and64 = .next t ∧ t.responses.head? = some (.error .missingBuffer)) ∧
    (∃ t, exec (.decc (some 14)) (driven reportS5) = .next t ∧ t.responses.head? = some (.error .truncated)) ∧
    (∃ t, exec (.decc (some 15)) (driven reportS7) = .next t ∧ t.responses.head? = some (.error .unknownVariant)) :=
  ⟨⟨_, rfl, by decide⟩, ⟨_, rfl, by decide⟩, ⟨_, rfl, by decide⟩, ⟨_, rfl, by decide⟩⟩

theorem witness_ErrorsLeaveTheStateUntouched : ∃ (s t : State), s.pending = [.issue 0x1001FFFF#32] ∧ step s = .next t ∧
    t.responses.head? = some (.error .outOfRange) := ⟨cells3and64.awaiting [.issue 0x1001FFFF#32], _, rfl, rfl, by decide⟩

theorem witness_OneResponsePerCommandNeverAltered :
    (∃ s t : State, step s = .next t ∧ s.pending = [.issue 0x20000000#32]) ∧
    (∃ s t : State, step s = .next t ∧ ∀ w rest, s.pending ≠ .issue w :: rest) :=
  ⟨⟨cells3and64.awaiting [.issue 0x20000000#32], _, rfl, rfl⟩,
    ⟨cells3and64.awaiting [.assertReset], _, rfl, by simp⟩⟩

theorem witness_StepIsTotalAfterReset : cells3and64.wasReset = true ∧
    ({ cells3and64 with wasReset := false } : State).pending = [] := by decide

theorem witness_EncoderCommandsDriveTheirPorts : cells3and64.wasReset = true ∧ ((0 : Int) ≤ 127 ∧ (127 : Int) < 128) ∧
    127 < 128 ∧ 7 < 8 := by decide

theorem witness_EveryCommandAnswers : ∃ (s : State) (ws : List Word), s.wasReset = true ∧ s.pending = ws.map .issue ∧
    ws.length = 2 :=
  ⟨cells3and64.awaiting [.issue 0x50000000#32, .issue 0x30000000#32], [0x50000000#32, 0x30000000#32], by decide⟩

theorem witness_CommandFrame : ∃ t, exec (.setb 127 true) cells3and64 = .next t ∧ (126 : Nat) < 128 ∧
    (∀ value, Instr.setb 127 true ≠ .setb ((126 : Nat) : Int) value) ∧ (6 : Nat) < 8 ∧
    (∀ index value, Instr.setb 127 true = .setb index value → index / 16 ≠ ((6 : Nat) : Int)) := by
  refine ⟨_, rfl, by decide, fun value => by cases value <;> decide, by decide, fun index value h => ?_⟩
  cases h
  decide

theorem witness_CommandsIgnoreHistory : ∃ s s' : State, s.bits = s'.bits ∧ s.gmap = s'.gmap ∧ s.wasReset = s'.wasReset ∧
    (∀ off, s.rbByte off = s'.rbByte off) ∧ s ≠ s' :=
  ⟨cells3and64, cells3and64.respond (.error .truncated), rfl, rfl, rfl, fun _ => rfl, by decide⟩

theorem witness_UnitsAreIndependent : ∃ (i : Instr) (s : State), (∀ buffer, i ≠ .decc buffer) ∧ s.wasReset = true :=
  ⟨.setb 127 true, cells3and64, by simp, rfl⟩

theorem witness_ReadsDoNotDisturb : ∃ (i : Instr) (s t : State), (∀ index value, i ≠ .setb index value) ∧ exec i s = .next t :=
  ⟨.snap, cells3and64, _, by simp, rfl⟩

theorem witness_StepRunsTheDecodedCommand : ∃ (s : State) (w : Word) (i : Instr), s.pending = [.issue w] ∧ decode w = .ok i ∧
    0x20000000 < 2 ^ 32 ∧ decode (BitVec.ofNat 32 0x20000000) = .ok i :=
  ⟨cells3and64.awaiting [.issue 0x20000000#32], 0x20000000#32, .snap, by decide⟩

theorem witness_ResetClearsCellsAndFlags : ∃ s : State, s.pending = [.assertReset] ∧ s.bits ≠ 0 ∧ s.gmap ≠ 0 :=
  ⟨cells3and64.awaiting [.assertReset], by decide⟩

theorem witness_FirstReadsAfterResetAreZero : ∃ s : State,
    s.pending = [.assertReset, .issue 0x20000000#32, .issue 0x30000000#32] ∧ s.bits ≠ 0 :=
  ⟨cells3and64.awaiting [.assertReset, .issue 0x20000000#32, .issue 0x30000000#32], by decide⟩

theorem witness_NeverResetBlockRefusesTheEncoder : ∃ s : State, s.wasReset = false ∧ s.bits ≠ 0 :=
  ⟨{ cells3and64 with wasReset := false }, by decide⟩

theorem witness_BufferChangeTouchesOnlyItsBytes : ∃ s : State, s.pending = [.changeBuffer [(0, 0x01), (65534, 0xFF)]] :=
  ⟨State.reset.awaiting [.changeBuffer [(0, 0x01), (65534, 0xFF)]], rfl⟩

theorem witness_StepKeepsTheInvariant : ∃ s t : State, s.Inv ∧ step s = .next t ∧ s.cell 64 = true := by
  refine ⟨{ cells3and64 with pending := [.issue 0x1001007F#32], rb := (driven reportS5).rb }, _, ⟨by decide, fun _ => ?_⟩,
    rfl, by decide⟩
  unfold State.Consistent
  decide

theorem witness_SnapShowsTheLastAcceptedValues : ∃ (s : State) (actions : List HostAction), WithinSession actions ∧
    s.pending = .assertReset :: (actions ++ [.issue 0x20000000#32]) ∧ lastAccepted actions 127 = some true := by
  refine ⟨cells3and64.awaiting (.assertReset :: ([.issue 0x1001007F#32] ++ [.issue 0x20000000#32])), [.issue 0x1001007F#32],
    ?_, rfl, by decide⟩
  unfold WithinSession
  decide

theorem witness_TgrpShowsTheGroupsOfAcceptedSetbs : ∃ (s : State) (actions : List HostAction), WithinSession actions ∧
    s.pending = .assertReset :: (actions ++ [.issue 0x30000000#32]) ∧ lastAccepted actions 127 = some false := by
  refine ⟨cells3and64.awaiting (.assertReset :: ([.issue 0x1000007F#32] ++ [.issue 0x30000000#32])), [.issue 0x1000007F#32],
    ?_, rfl, by decide⟩
  unfold WithinSession
  decide

end Sys2Proof.Tests
end

/-!
PROOFS. The family of spec/00_scope.md: what a step hands to a command, what a command's answer is a function of, and what a
change of the report buffer leaves on each offset.
-/

namespace Sys2Proof.Machine

/-! ### Taking the next action from the host's list -/

@[simp] theorem State.awaiting_pending_self (s : State) : s.awaiting s.pending = s := rfl

@[simp] theorem State.awaiting_awaiting (s : State) (before after : List HostAction) :
    (s.awaiting before).awaiting after = s.awaiting after := rfl

theorem tableWord_of_lt {w : Nat} (h : w < 2 ^ 32) : tableWord 32 w = BitVec.ofNat 32 w := by
  rw [tableWord, Nat.mod_eq_of_lt h]

/-- A word that was placed and decodes runs its command, on the state before it was placed. -/
theorem step_withFetchWord_of_decode {s : State} {nbits w : Nat} {i : Instr} (hd : decode (tableWord nbits w) = .ok i) :
    step (s.withFetchWord nbits w) = exec i s := by
  have hp : (s.withFetchWord nbits w).pending = .issue (tableWord nbits w) :: s.pending := rfl
  rw [step_of_decode hp hd, State.withFetchWord, State.awaiting_awaiting, State.awaiting_pending_self]

/-- A step that takes a change of the buffer makes that change. -/
theorem step_of_changeBuffer {s : State} {writes : List (Fin Config.bufferSpace × Byte)} {rest : List HostAction}
    (hp : s.pending = .changeBuffer writes :: rest) : step s = .next ((s.awaiting rest).changeBuffer writes) := by
  simp [step, advance, hp, perform]

/-- Settles O31: the head of the list is the word that is decoded, and a placed word is that head. -/
theorem stepRunsTheDecodedCommand : Obligations.StepRunsTheDecodedCommand := by
  refine ⟨fun s w rest i hp hd => step_of_decode hp hd, fun s w i hw hd => ?_⟩
  rw [← tableWord_of_lt hw] at hd
  exact step_withFetchWord_of_decode hd

/-! ### A change of the report buffer, offset by offset -/

theorem Memory.writeAll_concat (m : Memory) (writes : List (Fin Config.bufferSpace × Byte))
    (x : Fin Config.bufferSpace × Byte) :
    Memory.writeAll m (writes ++ [x]) = Memory.write (Memory.writeAll m writes) x.1.val x.2 := by
  simp [Memory.writeAll]

/-- After a list of writes an offset reads as the last byte written to it, or as before where none was. -/
theorem Memory.read_writeAll (m : Memory) (writes : List (Fin Config.bufferSpace × Byte)) (off : Nat) :
    Memory.read (Memory.writeAll m writes) off =
      ((writes.reverse.find? fun x => x.1.val == off).map Prod.snd).or (Memory.read m off) := by
  induction writes using List.reverseRecOn with
  | nil => rfl
  | append_singleton writes x ih =>
    rw [Memory.writeAll_concat, List.reverse_concat]
    by_cases h : x.1.val = off
    · simp [← h, Memory.read_write_same]
    · rw [Memory.read_write_other _ _ (Ne.symm h), List.find?_cons_of_neg (by simpa using h), ih]

/-- Settles O35: the state after the step is the changed one, whose bytes `Memory.read_writeAll` gives. -/
theorem bufferChangeTouchesOnlyItsBytes : Obligations.BufferChangeTouchesOnlyItsBytes := by
  intro s writes rest hp
  refine ⟨_, step_of_changeBuffer hp, rfl, rfl, rfl, rfl, rfl, fun off => ?_⟩
  rw [State.changeBuffer_rb, State.awaiting_rb, Memory.read_writeAll]
  cases writes.reverse.find? fun x => x.1.val == off <;> rfl

/-! ### What a command's answer is a function of -/

/-- What a command gives: its response, and the cells and the flags it leaves. -/
structure Effect where
  response : Response
  bits : BitVec 128
  gmap : BitVec 8

/-- The effect of a command that answers, from the cells, the flags and the bytes of a report alone; `exec_refused_or_effect`
ties it to `exec`. -/
def effectOf (i : Instr) (bits : BitVec 128) (gmap : BitVec 8) (rb : Nat → Byte) : Effect :=
  match i with
  | .setb index value =>
    if indexInRange index then ⟨.ok .empty, setBit bits index.toNat value, setBit gmap (groupOf index.toNat) true⟩
    else ⟨.error .outOfRange, bits, gmap⟩
  | .snap => ⟨.ok (.packed (pack bits)), bits, gmap⟩
  | .tgrp => ⟨.ok (.groups gmap), bits, gmap⟩
  | .decc buffer => ⟨Response.ofResult (decodeReport buffer rb), bits, gmap⟩

/-- The state a command with this effect leaves. -/
def State.after (s : State) (e : Effect) : State :=
  { s with bits := e.bits, gmap := e.gmap, responses := e.response :: s.responses }

/-- A command of the encoder: one of SETB, SNAP and TGRP (spec/00_scope.md R2). -/
def IsEncoderCommand (i : Instr) : Prop := ∀ buffer, i ≠ .decc buffer

/-- A command of the encoder on a block that was never reset is refused. -/
theorem exec_of_never {i : Instr} {s : State} (hi : IsEncoderCommand i) (hr : s.wasReset = false) :
    exec i s = .refused .neverReset := by
  cases i with
  | setb index value => exact requireReset_of_never hr _
  | snap => exact requireReset_of_never hr _
  | tgrp => exact requireReset_of_never hr _
  | decc buffer => exact absurd rfl (hi buffer)

/-- On a block that was reset every command answers, with its effect. -/
theorem exec_of_wasReset (i : Instr) {s : State} (hr : s.wasReset = true) :
    exec i s = .next (s.after (effectOf i s.bits s.gmap s.rbByte)) := by
  cases i with
  | setb index value =>
    by_cases hi : indexInRange index = true
    · obtain ⟨h0, h1⟩ := (indexInRange_iff index).1 hi
      rw [exec_setb_accepted hr h0 h1, effectOf, if_pos hi]
      rfl
    · have hout : index < 0 ∨ 128 ≤ index := by
        rw [indexInRange_iff] at hi
        omega
      rw [exec_setb_rejected hr hout, effectOf, if_neg hi]
      rfl
  | snap => exact exec_snap_of_wasReset hr
  | tgrp => exact exec_tgrp_of_wasReset hr
  | decc buffer => exact exec_decc buffer s

/-- Whether a command answers depends on the command and the mark of a reset alone: it is refused on every block with that
mark, or has its effect on every one. -/
theorem exec_refused_or_effect (i : Instr) (wasReset : Bool) :
    (∀ s : State, s.wasReset = wasReset → exec i s = .refused .neverReset) ∨
    (∀ s : State, s.wasReset = wasReset → exec i s = .next (s.after (effectOf i s.bits s.gmap s.rbByte))) := by
  cases wasReset with
  | true => exact .inr fun s hr => exec_of_wasReset i hr
  | false =>
    by_cases hi : IsEncoderCommand i
    · exact .inl fun s hr => exec_of_never hi hr
    · obtain ⟨buffer, rfl⟩ : ∃ buffer, i = .decc buffer := by simpa [IsEncoderCommand] using hi
      exact .inr fun s _ => exec_decc buffer s

/-- The effect of an encoder command does not look at the report buffer (spec/10_state.md R30). -/
theorem effectOf_encoder {i : Instr} (hi : IsEncoderCommand i) (bits : BitVec 128) (gmap : BitVec 8)
    (rb rb' : Nat → Byte) : effectOf i bits gmap rb = effectOf i bits gmap rb' := by
  cases i with
  | setb index value => rfl
  | snap => rfl
  | tgrp => rfl
  | decc buffer => exact absurd rfl (hi buffer)

/-- So an encoder command's effect on a block that was reset may be computed with the bytes of any report. -/
theorem exec_encoderCommand {i : Instr} (hi : IsEncoderCommand i) {s : State} (hr : s.wasReset = true) (rb : Nat → Byte) :
    exec i s = .next (s.after (effectOf i s.bits s.gmap rb)) := by
  rw [exec_of_wasReset i hr, effectOf_encoder hi _ _ _ rb]

/-- Settles O28: cells, flags, mark and bytes decide both whether a command is refused and its effect. -/
theorem commandsIgnoreHistory : Obligations.CommandsIgnoreHistory := by
  intro i s s' hbits hgmap hreset hrb
  rcases exec_refused_or_effect i s.wasReset with h | h
  · exact .inl ⟨h s rfl, h s' hreset.symm⟩
  · have heffect : effectOf i s.bits s.gmap s.rbByte = effectOf i s'.bits s'.gmap s'.rbByte := by
      rw [hbits, hgmap, funext hrb]
    refine .inr ⟨_, _, _, h s rfl, ?_⟩
    rw [heffect]
    exact h s' hreset.symm

/-- Settles O29: DECC's response is computed from the bytes of the report, an encoder command's effect from the cells and the
flags. -/
theorem unitsAreIndependent : Obligations.UnitsAreIndependent := by
  constructor
  · intro s buffer
    exact ⟨Response.ofResult (decodeReport buffer s.rbByte), fun _ _ _ => exec_decc buffer _⟩
  · intro i s hi hr
    have hexec : ∀ rb rbEpoch, exec i { s with rb := rb, rbEpoch := rbEpoch } =
        .next (State.after { s with rb := rb, rbEpoch := rbEpoch } (effectOf i s.bits s.gmap s.rbByte)) :=
      fun rb rbEpoch => exec_encoderCommand hi (s := { s with rb := rb, rbEpoch := rbEpoch }) hr s.rbByte
    exact ⟨_, _, _, hexec⟩

end Sys2Proof.Machine

/-!
PROOFS. The family of spec/10_state.md: what a command changes and what it leaves, the flags over commands and steps, and the
state after a reset.
-/

namespace Sys2Proof.Machine

/-! ### What a command changes -/

/-- A command that answers leaves the state of its effect: nothing but the cells, the flags and the responses can differ. -/
theorem exec_next_eq_after {i : Instr} {s t : State} (h : exec i s = .next t) :
    t = s.after (effectOf i s.bits s.gmap s.rbByte) := by
  rcases exec_refused_or_effect i s.wasReset with hx | hx
  · rw [hx s rfl] at h
    nomatch h
  · rw [hx s rfl] at h
    exact (Host.Outcome.next.inj h).symm

/-- A command that answers is a SETB that wrote its one cell and its one flag, or it has given a response and nothing else. -/
theorem exec_next_setb_or_respond {i : Instr} {s t : State} (h : exec i s = .next t) :
    (∃ index value r, i = .setb index value ∧ 0 ≤ index ∧
      t = ((s.writeCell index.toNat value).touchGroup (groupOf index.toNat)).respond r) ∨
    ∃ r, t = s.respond r := by
  rcases exec_cases h with ⟨index, value, hi, -, h0, -, ht⟩ | ⟨_, _, -, -, -, ht⟩ | ⟨-, -, ht⟩ | ⟨-, -, ht⟩ | ⟨_, -, ht⟩
  · exact .inl ⟨index, value, _, hi, h0, ht⟩
  · exact .inr ⟨_, ht⟩
  · exact .inr ⟨_, ht⟩
  · exact .inr ⟨_, ht⟩
  · exact .inr ⟨_, ht⟩

/-- A cell that no SETB names stays. -/
theorem exec_keeps_cell {i : Instr} {s t : State} (h : exec i s = .next t) {j : Nat} (hj : j < 128)
    (hi : ∀ value, i ≠ .setb j value) : t.cell j = s.cell j := by
  rcases exec_next_setb_or_respond h with ⟨index, value, r, rfl, h0, rfl⟩ | ⟨r, rfl⟩
  · have hne : j ≠ index.toNat := by
      intro hje
      have hindex : index = (j : Int) := by omega
      exact hi value (by rw [hindex])
    rw [State.cell_respond, State.cell_touchGroup, State.cell_writeCell _ _ _ hj, if_neg hne]
  · exact State.cell_respond s r j

/-- A flag stays unless a SETB names an index of its group. -/
theorem exec_keeps_flag {i : Instr} {s t : State} (h : exec i s = .next t) {g : Nat} (hg : g < 8)
    (hi : ∀ index value, i = .setb index value → index / 16 ≠ g) : t.flag g = s.flag g := by
  rcases exec_next_setb_or_respond h with ⟨index, value, r, rfl, h0, rfl⟩ | ⟨r, rfl⟩
  · have hne : g ≠ groupOf index.toNat := by
      have hgroup := hi index value rfl
      unfold groupOf Config.groupSize
      omega
    rw [State.flag_respond, State.flag_touchGroup _ _ hg, if_neg hne, State.flag_writeCell]
  · exact State.flag_respond s r g

/-- Settles O27: the boundary is outside a command's effect, and a cell or a flag changes only where a SETB names it. -/
theorem commandFrame : Obligations.CommandFrame := by
  intro i s t h
  have hcells := fun j (hj : j < 128) => exec_keeps_cell h hj
  have hflags := fun g (hg : g < 8) => exec_keeps_flag h hg
  obtain rfl := exec_next_eq_after h
  exact ⟨fun _ => rfl, fun _ => rfl, rfl, rfl, rfl, ⟨_, rfl⟩, hcells, hflags⟩

/-! ### Flags over commands, steps and reset -/

@[simp] theorem State.flag_awaiting (s : State) (rest : List HostAction) (g : Nat) :
    (s.awaiting rest).flag g = s.flag g := rfl

@[simp] theorem State.flag_changeBuffer (s : State) (writes : List (Fin Config.bufferSpace × Byte)) (g : Nat) :
    (s.changeBuffer writes).flag g = s.flag g := rfl

@[simp] theorem State.flag_initialise (s : State) (g : Nat) : s.initialise.flag g = false := by simp [State.flag]

theorem State.flag_lt_eight {s : State} {g : Nat} (h : s.flag g = true) : g < 8 := BitVec.lt_of_getLsbD h

theorem State.flag_touchGroup_of_flag {s : State} {g : Nat} (k : Nat) (h : s.flag g = true) :
    (s.touchGroup k).flag g = true := by
  rw [State.flag_touchGroup s k (State.flag_lt_eight h), h, ite_self]

/-- No command clears a flag (spec/10_state.md R23). -/
theorem exec_flag_sticky {i : Instr} {s t : State} (h : exec i s = .next t) {g : Nat} (hg : s.flag g = true) :
    t.flag g = true := by
  rcases exec_next_setb_or_respond h with ⟨index, value, r, -, -, rfl⟩ | ⟨r, rfl⟩
  · rw [State.flag_respond]
    exact State.flag_touchGroup_of_flag _ hg
  · exact hg

/-- A step that takes no reset clears no flag. -/
theorem step_flag_sticky_or_reset {s t : State} (h : step s = .next t) {g : Nat} (hg : s.flag g = true) :
    t.flag g = true ∨ ∃ rest, s.pending = .assertReset :: rest := by
  rcases step_cases h with ⟨-, rfl⟩ | ⟨rest, hp, -⟩ | ⟨writes, rest, -, rfl⟩ | ⟨w, rest, i, -, -, hx⟩ | ⟨w, rest, e, -, -, rfl⟩
  · exact .inl hg
  · exact .inr ⟨rest, hp⟩
  · exact .inl (by simpa using hg)
  · exact .inl (exec_flag_sticky hx (by simpa using hg))
  · exact .inl (by simpa using hg)

/-- A step that takes a reset initialises the block. -/
theorem step_of_assertReset {s : State} {rest : List HostAction} (hp : s.pending = .assertReset :: rest) :
    step s = .next (s.awaiting rest).initialise := by
  simp [step, advance, hp, perform]

/-- Settles O15: a command only ever sets flags, so the one step that clears them is the reset. -/
theorem flagsAreStickyButForReset : Obligations.FlagsAreStickyButForReset := by
  refine ⟨fun i s t g h hg => exec_flag_sticky h hg, fun s t g h hg ht => ?_, fun s rest hp => ?_⟩
  · exact (step_flag_sticky_or_reset h hg).resolve_left (by simp [ht])
  · exact ⟨_, step_of_assertReset hp, State.flag_initialise _⟩

/-! ### The state after a reset -/

theorem decode_snapWord : decode 0x20000000#32 = .ok .snap := by decide

theorem decode_tgrpWord : decode 0x30000000#32 = .ok .tgrp := by decide

/-- A snapshot of cells that are all off is sixteen zero bytes. -/
theorem pack_zero : pack 0#128 = Vector.replicate 16 0x00#8 := by
  apply Vector.ext
  intro k hk
  rw [pack_getElem _ k hk, packByte_eq_slice, Vector.getElem_replicate]
  simp

/-- A step that takes the SNAP word on a block that was reset answers the packed cells. -/
theorem step_of_snapWord {s : State} {rest : List HostAction} (hr : s.wasReset = true)
    (hp : s.pending = .issue 0x20000000#32 :: rest) :
    step s = .next ((s.awaiting rest).respond (.ok (.packed (pack s.bits)))) := by
  rw [step_of_decode hp decode_snapWord]
  exact exec_snap_of_wasReset hr

/-- A step that takes the TGRP word on a block that was reset answers the mask of the flags. -/
theorem step_of_tgrpWord {s : State} {rest : List HostAction} (hr : s.wasReset = true)
    (hp : s.pending = .issue 0x30000000#32 :: rest) :
    step s = .next ((s.awaiting rest).respond (.ok (.groups s.gmap))) := by
  rw [step_of_decode hp decode_tgrpWord]
  exact exec_tgrp_of_wasReset hr

/-- Settles O33: the three steps one after the other; SNAP packs the cleared cells, and TGRP reads the flags SNAP left. -/
theorem firstReadsAfterResetAreZero : Obligations.FirstReadsAfterResetAreZero := by
  refine ⟨⟨State.reset_bits, State.reset_gmap⟩, fun s rest hp => ?_⟩
  rw [run_succ_of_next (step_of_assertReset hp), run_succ_of_next (step_of_snapWord rfl rfl),
    run_succ_of_next (step_of_tgrpWord rfl rfl), run_zero]
  exact ⟨_, rfl, by simp [pack_zero]⟩

@[simp] theorem State.cell_reset (i : Nat) : State.reset.cell i = false := by simp [State.cell]

/-- With every cell off no flag is asked for. -/
theorem State.consistent_reset : State.reset.Consistent := fun i _ hon => by simp at hon

/-- Settles O36: no lane is driven and no cell is on. -/
theorem resetMeetsTheInvariant : Obligations.ResetMeetsTheInvariant :=
  ⟨Memory.wf_reset, fun _ => State.consistent_reset⟩

end Sys2Proof.Machine

/-!
PROOFS. The family of spec/20_memory.md: the order in which SETBs are issued, the reads between them, and the bytes of a report
that DECC looks at.
-/

namespace Sys2Proof.Machine

/-! ### SETB after SETB -/

/-- Of two writes to one bit the later one stands. -/
theorem setBit_setBit_same {n : Nat} (b : BitVec n) (i : Nat) (v v' : Bool) :
    setBit (setBit b i v) i v' = setBit b i v' := by
  apply BitVec.eq_of_getLsbD_eq
  intro k hk
  simp only [getLsbD_setBit _ _ _ hk]
  split_ifs <;> rfl

/-- Two writes may be exchanged unless they put different values on one bit. -/
theorem setBit_comm {n : Nat} (b : BitVec n) {i j : Nat} {v v' : Bool} (h : i = j → v = v') :
    setBit (setBit b i v) j v' = setBit (setBit b j v') i v := by
  apply BitVec.eq_of_getLsbD_eq
  intro k hk
  simp only [getLsbD_setBit _ _ _ hk]
  split_ifs with hj hi
  · exact (h (hi.symm.trans hj)).symm
  · rfl
  · rfl
  · rfl

/-- An accepted SETB writes one bit of the cells and one of the flags, and the block stays a block that was reset. -/
theorem exec_setb_accepted_writes {s : State} (hr : s.wasReset = true) {index : Int} (h0 : 0 ≤ index) (h1 : index < 128)
    (value : Bool) : ∃ t, exec (.setb index value) s = .next t ∧ t.wasReset = true ∧
      t.bits = setBit s.bits index.toNat value ∧ t.gmap = setBit s.gmap (groupOf index.toNat) true :=
  ⟨_, exec_setb_accepted hr h0 h1 value, hr, rfl, rfl⟩

/-- Settles O11: the writes to the cells as `setBit` orders them; a flag is only ever written with 1, so two writes to the flags
may be exchanged even inside one group. -/
theorem laterSetbWinsAndOthersCommute : Obligations.LaterSetbWinsAndOthersCommute := by
  intro s i j v v' hr hi0 hi1 hj0 hj1
  obtain ⟨a, ha, har, habits, hagmap⟩ := exec_setb_accepted_writes hr hi0 hi1 v
  obtain ⟨b, hb, -, hbbits, hbgmap⟩ := exec_setb_accepted_writes har hj0 hj1 v'
  obtain ⟨c, hc, hcr, hcbits, hcgmap⟩ := exec_setb_accepted_writes hr hj0 hj1 v'
  obtain ⟨d, hd, -, hdbits, hdgmap⟩ := exec_setb_accepted_writes hcr hi0 hi1 v
  refine ⟨a, b, c, d, ha, hb, hc, hd, ?_, ?_⟩
  · rintro rfl
    rw [hbbits, hbgmap, habits, hagmap, hcbits, hcgmap]
    exact ⟨setBit_setBit_same _ _ _ _, setBit_setBit_same _ _ _ _⟩
  · intro hne
    have hcell : i.toNat ≠ j.toNat := by omega
    rw [hbbits, hbgmap, habits, hagmap, hdbits, hdgmap, hcbits, hcgmap]
    exact ⟨setBit_comm _ fun h => absurd h hcell, setBit_comm _ fun _ => rfl⟩

/-! ### Reads between other commands -/

/-- A command other than SETB gives its response and changes nothing else. -/
theorem exec_next_respond_of_ne_setb {i : Instr} {s t : State} (hi : ∀ index value, i ≠ .setb index value)
    (h : exec i s = .next t) : ∃ r, t = s.respond r := by
  rcases exec_next_setb_or_respond h with ⟨index, value, -, hsetb, -⟩ | hrespond
  · exact absurd hsetb (hi index value)
  · exact hrespond

/-- Settles O30: the states before and after a read differ in the responses given, which no command looks at. -/
theorem readsDoNotDisturb : Obligations.ReadsDoNotDisturb := by
  intro i j s t hi h
  obtain ⟨r, rfl⟩ := exec_next_respond_of_ne_setb hi h
  exact commandsIgnoreHistory j s (s.respond r) rfl rfl rfl fun _ => rfl

/-! ### What DECC reads of a report -/

/-- Two buffers agree on what DECC reads: byte 1, the low nibble of byte 2 and bytes 3 to 14 (spec/20_memory.md R49);
`decodeReport_congr` ties it to the decoder. -/
structure SameFields (rb rb' : Nat → Byte) : Prop where
  blockIndex : rb 1 = rb' 1
  selector : (rb 2).extractLsb' 0 4 = (rb' 2).extractLsb' 0 4
  parameters : ∀ off, 3 ≤ off → off ≤ 14 → rb off = rb' off

theorem selectorNibble_eq_extractLsb' (rb : Nat → Byte) : selectorNibble rb = ((rb 2).extractLsb' 0 4).toNat := by
  simp [selectorNibble_eq_mod]

/-- A parameter is read alike when both of its bytes are among the bytes 3 to 14. -/
theorem SameFields.memRead2_eq {rb rb' : Nat → Byte} (h : SameFields rb rb') {off : Nat} (hlo : 3 ≤ off) (hhi : off ≤ 13) :
    memRead2 rb off = memRead2 rb' off := by
  rw [memRead2, memRead2, h.parameters off hlo (by omega), h.parameters (off + 1) (by omega) (by omega)]

theorem SameFields.readReport_eq {rb rb' : Nat → Byte} (h : SameFields rb rb') (axis : Axis) :
    readReport rb axis = readReport rb' axis := by
  simp [readReport, memRead1, h.blockIndex, h.memRead2_eq]

/-- A buffer that is too short is answered whatever its bytes are. -/
theorem decodeReport_of_short {len : Nat} (h : len < 15) (rb : Nat → Byte) :
    decodeReport (some len) rb = .error .truncated := if_pos h

/-- A buffer that is long enough is decoded by its fields alone, however long it is. -/
theorem decodeReport_congr {rb rb' : Nat → Byte} (h : SameFields rb rb') {len len' : Nat} (hlen : 15 ≤ len)
    (hlen' : 15 ≤ len') : decodeReport (some len) rb = decodeReport (some len') rb' := by
  have hsel : selectorNibble rb = selectorNibble rb' := by simp only [selectorNibble_eq_extractLsb', h.selector]
  simp only [decodeReport, if_neg (Nat.not_lt.2 hlen), if_neg (Nat.not_lt.2 hlen'), hsel, h.readReport_eq]

/-- Settles O18: the three ways a buffer is received, absent, too short and long enough; the block's state enters none of
them. -/
theorem deccDependsOnlyOnItsFields : Obligations.DeccDependsOnlyOnItsFields := by
  intro s s' buffer buffer' habsent hpresent
  have hsame : decodeReport buffer s.rbByte = decodeReport buffer' s'.rbByte := by
    cases buffer with
    | none =>
      obtain rfl := habsent.1 rfl
      rfl
    | some len =>
      obtain ⟨len', rfl⟩ : ∃ len', buffer' = some len' := Option.ne_none_iff_exists'.1 (by simp [← habsent])
      obtain ⟨hshort, hfields⟩ := hpresent len len' rfl rfl
      by_cases hlen : len < 15
      · rw [decodeReport_of_short hlen, decodeReport_of_short (hshort.1 hlen)]
      · have hlong : 15 ≤ len := Nat.le_of_not_lt hlen
        have hlong' : 15 ≤ len' := Nat.le_of_not_lt fun h => hlen (hshort.2 h)
        obtain ⟨hindex, hselector, hparameters⟩ := hfields hlong
        exact decodeReport_congr ⟨hindex, hselector, hparameters⟩ hlong hlong'
  refine ⟨_, exec_decc buffer s, ?_⟩
  rw [hsame]
  exact exec_decc buffer' s'

end Sys2Proof.Machine

/-!
PROOFS. The family of spec/30_encoding.md: the rows of the opcode map as conditions on the fields of a word, decoding as the
inverse of encoding, illegal words, and the outputs of the OK responses.
-/

namespace Sys2Proof

/-! ### The rows of the opcode map -/

theorem OpcodeRow.selects_iff (r : OpcodeRow) (w : Word) : r.selects w = true ↔ w &&& r.mask = r.pattern := beq_iff_eq

/-- A word whose reserved bits are 0 is the assembly of its fields. -/
theorem assemble_fields {w : Word} (h : rsvField w = 0#11) : assemble (opField w) (vField w) (immField w) = w := by
  apply BitVec.eq_of_toNat_eq
  have hrsv : w.toNat / 2 ^ 17 % 2 ^ 11 = 0 := by simpa [toNat_rsvField] using congrArg BitVec.toNat h
  have hv : (vField w).toNat = w.toNat / 2 ^ 16 % 2 := by
    rw [vField, BitVec.getLsbD, Nat.toNat_testBit]
  rw [toNat_assemble, toNat_opField, toNat_immField, hv]
  omega

/-- Format S (spec/30_encoding.md R61). -/
theorem setbRow_selects_iff_fields (w : Word) :
    setbRow.selects w = true ↔ opField w = 0x1#4 ∧ rsvField w = 0#11 := by
  rw [setbRow_selects, ← BitVec.toNat_inj, ← BitVec.toNat_inj, toNat_opField, toNat_rsvField]
  simp only [BitVec.toNat_ofNat]
  omega

/-- Format D (spec/30_encoding.md R63). -/
theorem deccRow_selects_iff_fields (w : Word) :
    deccRow.selects w = true ↔ opField w = 0x4#4 ∧ rsvField w = 0#11 := by
  rw [deccRow_selects, ← BitVec.toNat_inj, ← BitVec.toNat_inj, toNat_opField, toNat_rsvField]
  simp only [BitVec.toNat_ofNat]
  omega

/-- A word is its operation code and the 28 bits below it. -/
theorem eq_iff_opField_and_low (w v : Word) :
    w = v ↔ opField w = opField v ∧ w.extractLsb' 0 28 = v.extractLsb' 0 28 := by
  have := w.isLt
  have := v.isLt
  simp only [← BitVec.toNat_inj, toNat_opField, BitVec.extractLsb'_toNat, Nat.shiftRight_zero]
  omega

/-- Format N with `OP = 0x2` (spec/30_encoding.md R62). -/
theorem snapRow_selects_iff_fields (w : Word) :
    snapRow.selects w = true ↔ opField w = 0x2#4 ∧ w.extractLsb' 0 28 = 0#28 := by
  rw [snapRow_selects, eq_iff_opField_and_low]
  rfl

/-- Format N with `OP = 0x3` (spec/30_encoding.md R62). -/
theorem tgrpRow_selects_iff_fields (w : Word) :
    tgrpRow.selects w = true ↔ opField w = 0x3#4 ∧ w.extractLsb' 0 28 = 0#28 := by
  rw [tgrpRow_selects, eq_iff_opField_and_low]
  rfl

/-- The words of an absent buffer: the row of DECC with `PRESENT = 0` (spec/30_encoding.md R63). -/
theorem highHalf_absentBuffer_iff (w : Word) :
    w.extractLsb' 16 16 = 0x4000#16 ↔ deccRow.selects w = true ∧ vField w = false := by
  rw [deccRow_selects, vField_eq, ← BitVec.toNat_inj, BitVec.extractLsb'_toNat, Nat.shiftRight_eq_div_pow,
    decide_eq_false_iff_not]
  have := w.isLt
  simp only [BitVec.toNat_ofNat]
  omega

/-! ### The decoder and the rows -/

theorem decode_of_snapRow {w : Word} (h : snapRow.selects w = true) : decode w = .ok .snap := by
  obtain rfl := (snapRow_selects w).1 h
  decide

theorem decode_of_tgrpRow {w : Word} (h : tgrpRow.selects w = true) : decode w = .ok .tgrp := by
  obtain rfl := (tgrpRow_selects w).1 h
  decide

/-- A word that decodes is selected by the row of its command. -/
theorem row_selects_of_decode {w : Word} {i : Instr} (h : decode w = .ok i) : i.row.selects w = true := by
  rcases decode_cases h with ⟨hw, rfl⟩ | ⟨hw, rfl⟩ | ⟨hw, rfl⟩ | ⟨hw, rfl⟩
  · exact hw
  · exact (snapRow_selects w).2 hw
  · exact (tgrpRow_selects w).2 hw
  · exact hw

/-- A word decodes exactly when some row selects it. -/
theorem exists_decode_iff_row_selects (w : Word) :
    (∃ i, decode w = .ok i) ↔
      setbRow.selects w = true ∨ snapRow.selects w = true ∨ tgrpRow.selects w = true ∨ deccRow.selects w = true := by
  constructor
  · rintro ⟨i, h⟩
    have hrow := row_selects_of_decode h
    cases i with
    | setb index value => exact .inl hrow
    | snap => exact .inr (.inl hrow)
    | tgrp => exact .inr (.inr (.inl hrow))
    | decc buffer => exact .inr (.inr (.inr hrow))
  · rintro (h | h | h | h)
    · exact ⟨_, decode_of_setbRow h⟩
    · exact ⟨_, decode_of_snapRow h⟩
    · exact ⟨_, decode_of_tgrpRow h⟩
    · exact ⟨_, decode_of_deccRow h⟩

/-- Settles O6: a row's word decodes by the row's arm, and a decoded word is selected by its command's row. -/
theorem opcodeRowsSelectDisjointWords : Obligations.OpcodeRowsSelectDisjointWords := by
  intro w
  refine ⟨⟨fun h => ?_, ?_⟩, ⟨fun h => ?_, fun h => ?_⟩, ⟨fun h => ?_, fun h => ?_⟩, ⟨fun h => ?_, ?_⟩⟩
  · exact ⟨_, _, decode_of_setbRow ((setbRow.selects_iff w).2 h)⟩
  · rintro ⟨index, value, h⟩
    exact (setbRow.selects_iff w).1 (row_selects_of_decode h)
  · exact decode_of_snapRow ((snapRow.selects_iff w).2 h)
  · exact (snapRow.selects_iff w).1 (row_selects_of_decode h)
  · exact decode_of_tgrpRow ((tgrpRow.selects_iff w).2 h)
  · exact (tgrpRow.selects_iff w).1 (row_selects_of_decode h)
  · exact ⟨_, decode_of_deccRow ((deccRow.selects_iff w).2 h)⟩
  · rintro ⟨buffer, h⟩
    exact (deccRow.selects_iff w).1 (row_selects_of_decode h)

/-! ### Operands -/

theorem indexField_eq_toInt (w : Word) : indexField w = (immField w).toInt := sext16_toNat (immField w)

/-- A DECC word with `PRESENT = 1`. -/
theorem decode_of_present {w : Word} (h : deccRow.selects w = true) (hv : vField w = true) :
    decode w = .ok (.decc (some (lenField w))) := by
  rw [decode_of_deccRow h, if_pos hv]

/-- A DECC word with `PRESENT = 0`: its `LEN` is not looked at. -/
theorem decode_of_absent {w : Word} (h : deccRow.selects w = true) (hv : vField w = false) :
    decode w = .ok (.decc none) := by
  rw [decode_of_deccRow h, hv]
  rfl

/-- Settles O5: the arm of the row that selects the word, its fields read as the spec words them. -/
theorem operandsAreAssembledFromTheirFields : Obligations.OperandsAreAssembledFromTheirFields := by
  intro w
  refine ⟨fun h => ?_, fun h => ⟨fun hv => ?_, fun hv => ?_⟩⟩
  · rw [decode_of_setbRow ((setbRow.selects_iff w).2 h), indexField_eq_toInt]
    rfl
  · exact decode_of_present ((deccRow.selects_iff w).2 h) hv
  · exact decode_of_absent ((deccRow.selects_iff w).2 h) hv

/-! ### Decoding and encoding -/

theorem indexFits_iff (index : Int) : indexFits index = true ↔ -32768 ≤ index ∧ index ≤ 32767 := by simp [indexFits]

theorem lengthFits_iff (len : Nat) : lengthFits len = true ↔ len ≤ 65535 := by simp [lengthFits]

/-- The `LEN` field holds every length up to 65535. -/
theorem toNat_ofNat_length {len : Nat} (h : len ≤ 65535) : (BitVec.ofNat 16 len).toNat = len := by
  rw [BitVec.toNat_ofNat]
  omega

theorem decode_encode_setb {index : Int} (h : indexFits index = true) (value : Bool) :
    decode (encode (.setb index value)) = .ok (.setb index value) := by
  obtain ⟨hlo, hhi⟩ := (indexFits_iff index).1 h
  have hindex : (BitVec.ofInt 16 index).toInt = index :=
    BitVec.toInt_ofInt_eq_self (by decide) (by omega) (by omega)
  rw [decode_of_setbRow (Laws.EncodesRow.setb index value), indexField_eq_toInt, encode, immField_assemble, vField_assemble,
    hindex]

theorem decode_encode_present {len : Nat} (h : lengthFits len = true) :
    decode (encode (.decc (some len))) = .ok (.decc (some len)) := by
  rw [decode_of_present (Laws.EncodesRow.decc (some len)) (vField_assemble _ _ _), lenField, encode, immField_assemble,
    toNat_ofNat_length ((lengthFits_iff len).1 h)]

/-- Settles O2: the word of a command is selected by the command's row, and its operand fields hold the operands. -/
theorem decodeOfEncodeIsIdentity : Obligations.DecodeOfEncodeIsIdentity := by
  intro i h
  match i with
  | .setb index value => exact decode_encode_setb h value
  | .snap => exact decode_of_snapRow Laws.EncodesRow.snap
  | .tgrp => exact decode_of_tgrpRow Laws.EncodesRow.tgrp
  | .decc none => exact decode_of_absent (Laws.EncodesRow.decc none) (vField_assemble _ _ _)
  | .decc (some len) => exact decode_encode_present h

/-- The encoder gives a SETB word back. -/
theorem encode_setb_fields {w : Word} (h : setbRow.selects w = true) : encode (.setb (indexField w) (vField w)) = w := by
  obtain ⟨hop, hrsv⟩ := (setbRow_selects_iff_fields w).1 h
  rw [encode, indexField_eq_toInt, BitVec.ofInt_toInt, ← hop, assemble_fields hrsv]

/-- The encoder gives a DECC word with `PRESENT = 1` back. -/
theorem encode_decc_fields {w : Word} (h : deccRow.selects w = true) (hv : vField w = true) :
    encode (.decc (some (lenField w))) = w := by
  obtain ⟨hop, hrsv⟩ := (deccRow_selects_iff_fields w).1 h
  rw [encode, lenField, BitVec.ofNat_toNat, BitVec.setWidth_eq, ← hop, ← hv, assemble_fields hrsv]

/-- A decoded command has a word. -/
theorem wellFormed_of_decode {w : Word} {i : Instr} (h : decode w = .ok i) : i.wellFormed = true := by
  have himm := (immField w).isLt
  rcases decode_cases h with ⟨-, rfl⟩ | ⟨-, rfl⟩ | ⟨-, rfl⟩ | ⟨-, rfl⟩
  · exact (indexFits_iff _).2 (sext16_range himm)
  · rfl
  · rfl
  · cases vField w with
    | true => exact (lengthFits_iff _).2 (Nat.le_of_lt_succ himm)
    | false => rfl

/-- Of the words that decode to one command the encoder gives the only one, but for the absent buffer. -/
theorem encode_of_decode {w : Word} {i : Instr} (h : decode w = .ok i) (hi : i ≠ .decc none) : encode i = w := by
  rcases decode_cases h with ⟨hw, rfl⟩ | ⟨rfl, rfl⟩ | ⟨rfl, rfl⟩ | ⟨hw, rfl⟩
  · exact encode_setb_fields hw
  · rfl
  · rfl
  · cases hv : vField w with
    | true => exact encode_decc_fields hw hv
    | false => simp [hv] at hi

/-- The words of the absent buffer, whatever their `LEN`. -/
theorem decode_eq_absent_iff (w : Word) : decode w = .ok (.decc none) ↔ w.extractLsb' 16 16 = 0x4000#16 := by
  rw [highHalf_absentBuffer_iff]
  refine ⟨fun h => ?_, fun ⟨hw, hv⟩ => decode_of_absent hw hv⟩
  have hw : deccRow.selects w = true := row_selects_of_decode h
  refine ⟨hw, Bool.eq_false_iff.2 fun hv => ?_⟩
  rw [decode_of_present hw hv] at h
  simp at h

/-- Settles O3: the fields of a selected word are all the word but for the `LEN` of an absent buffer. -/
theorem onlyAbsentBufferHasSeveralWords : Obligations.OnlyAbsentBufferHasSeveralWords := by
  refine ⟨fun w i h => ⟨wellFormed_of_decode h, encode_of_decode h, ?_⟩, fun w => (decode_eq_absent_iff w).2⟩
  rintro rfl
  exact (decode_eq_absent_iff w).1 h

/-- Settles O4: each word as the sum of its fields. -/
theorem encodedWordsAreTheSyntaxTables : Obligations.EncodedWordsAreTheSyntaxTables := by
  refine ⟨fun index value => ?_, rfl, rfl, fun len hlen => ?_, rfl⟩
  · rw [encode, toNat_assemble, BitVec.toNat_ofInt]
    rfl
  · rw [encode, toNat_assemble, toNat_ofNat_length hlen]
    rfl

/-- Settles O1: the decoder run on each of the fourteen words. -/
theorem sampleWordsDecode : Obligations.SampleWordsDecode := by
  unfold Obligations.SampleWordsDecode
  decide

end Sys2Proof

namespace Sys2Proof.Machine

/-! ### Illegal words -/

/-- The operation codes that no row has (spec/30_encoding.md R67). -/
theorem reservedOp_iff (op : BitVec 4) :
    (op = 0x0#4 ∨ 0x5#4 ≤ op) ↔ op ≠ 0x1#4 ∧ op ≠ 0x2#4 ∧ op ≠ 0x3#4 ∧ op ≠ 0x4#4 := by
  decide +revert

/-- The three cases of spec/30_encoding.md R66. -/
theorem decodes_to_nothing_iff (w : Word) : (∀ i, decode w ≠ .ok i) ↔
    (opField w = 0x0#4 ∨ 0x5#4 ≤ opField w) ∨
    ((opField w = 0x1#4 ∨ opField w = 0x4#4) ∧ rsvField w ≠ 0#11) ∨
    ((opField w = 0x2#4 ∨ opField w = 0x3#4) ∧ w.extractLsb' 0 28 ≠ 0#28) := by
  rw [← not_exists, exists_decode_iff_row_selects, setbRow_selects_iff_fields, snapRow_selects_iff_fields,
    tgrpRow_selects_iff_fields, deccRow_selects_iff_fields, reservedOp_iff]
  by_cases h1 : opField w = 0x1#4
  · simp [h1]
  by_cases h2 : opField w = 0x2#4
  · simp [h2]
  by_cases h3 : opField w = 0x3#4
  · simp [h3]
  by_cases h4 : opField w = 0x4#4
  · simp [h4]
  · simp [h1, h2, h3, h4]

/-- A step that takes a word which decodes to nothing answers `IllegalCommand`, on a block that was never reset too. -/
theorem step_of_illegal {s : State} {w : Word} {rest : List HostAction} (hp : s.pending = .issue w :: rest)
    (hd : ∀ i, decode w ≠ .ok i) : step s = .next ((s.awaiting rest).respond (.error .illegalCommand)) := by
  cases hw : decode w with
  | ok i => exact absurd hw (hd i)
  | error e => simp [step, advance, hp, perform, runWord, hw, raise, conclude, Response.ofResult]

/-- Settles O7: the words no row selects, by operation code, and the one way a step answers them. -/
theorem illegalWordsAreAnsweredWithoutEffect : Obligations.IllegalWordsAreAnsweredWithoutEffect :=
  ⟨decodes_to_nothing_iff, fun _ _ _ hp hd => step_of_illegal hp hd⟩

/-! ### One response for each command word -/

/-- A command that answers adds one response. -/
theorem exec_next_responses {i : Instr} {s t : State} (h : exec i s = .next t) : ∃ r, t.responses = r :: s.responses := by
  obtain rfl := exec_next_eq_after h
  exact ⟨_, rfl⟩

/-- Settles O24: only a command word is answered, and each of its two ways to be answered adds one response. -/
theorem oneResponsePerCommandNeverAltered : Obligations.OneResponsePerCommandNeverAltered := by
  intro s t h
  rcases step_cases h with ⟨hp, rfl⟩ | ⟨rest, hp, rfl⟩ | ⟨writes, rest, hp, rfl⟩ | ⟨w, rest, i, hp, -, hx⟩ |
    ⟨w, rest, e, hp, -, rfl⟩
  · exact ⟨by simp [hp], fun _ => rfl⟩
  · exact ⟨by simp [hp], fun _ => rfl⟩
  · exact ⟨by simp [hp], fun _ => rfl⟩
  · obtain ⟨r, hr⟩ := exec_next_responses hx
    exact ⟨fun _ _ _ => ⟨r, hr⟩, fun hne => absurd hp (hne w rest)⟩
  · exact ⟨fun _ _ _ => ⟨_, rfl⟩, fun hne => absurd hp (hne w rest)⟩

/-! ### The outputs after DECC -/

/-- A 16-bit field as a number is its two bytes, the one at the higher offset more significant (spec/20_memory.md R43). -/
theorem memRead2_eq_toNat_append (rb : Nat → Byte) (off : Nat) : memRead2 rb off = (rb (off + 1) ++ rb off).toNat := by
  rw [memRead2, BitVec.toNat_append, ← Nat.shiftLeft_add_eq_or_of_lt (rb off).isLt, Nat.shiftLeft_eq]
  omega

theorem ofNat_memRead2 (rb : Nat → Byte) (off : Nat) : BitVec.ofNat 16 (memRead2 rb off) = rb (off + 1) ++ rb off := by
  rw [memRead2_eq_toNat_append]
  exact (BitVec.ofNat_toNat 16 _).trans (BitVec.setWidth_eq _)

theorem ofInt_sext16_memRead2 (rb : Nat → Byte) (off : Nat) :
    BitVec.ofInt 16 (sext16 (memRead2 rb off)) = rb (off + 1) ++ rb off := by
  rw [memRead2_eq_toNat_append]
  exact (congrArg (BitVec.ofInt 16) (sext16_toNat _)).trans BitVec.ofInt_toInt

/-- The output of the byte field is the byte. -/
theorem ofNat_memRead1 (rb : Nat → Byte) (off : Nat) : BitVec.ofNat 8 (memRead1 rb off) = rb off :=
  (BitVec.ofNat_toNat 8 _).trans (BitVec.setWidth_eq _)

/-- A nibble whose bits 3:1 are clear is its bit 0. -/
theorem selectorNibble_of_highBits_zero {rb : Nat → Byte} (h : (rb 2).extractLsb' 1 3 = 0#3) :
    selectorNibble rb = ((rb 2).extractLsb' 0 1).toNat := by
  rw [← BitVec.toNat_inj, BitVec.extractLsb'_toNat, Nat.shiftRight_eq_div_pow, BitVec.toNat_ofNat] at h
  rw [selectorNibble_eq_mod, BitVec.extractLsb'_toNat, Nat.shiftRight_zero]
  omega

/-- A selector of one bit has an axis, and the bit is its wire value (spec/41_decoder.md R103). -/
theorem axisOfNibble_toNat (sel : BitVec 1) : ∃ axis, axisOfNibble sel.toNat = some axis ∧ axis.code = sel := by
  rcases BitVec.eq_zero_or_eq_one sel with rfl | rfl
  · exact ⟨.axisX, rfl, rfl⟩
  · exact ⟨.axisY, rfl, rfl⟩

/-- A buffer that is long enough and whose selector has an axis is answered with its report. -/
theorem decodeReport_of_axis {len : Nat} (hlen : 15 ≤ len) {rb : Nat → Byte} {axis : Axis}
    (h : axisOfNibble (selectorNibble rb) = some axis) :
    decodeReport (some len) rb = .ok (.report (readReport rb axis)) := by
  simp only [decodeReport, if_neg (Nat.not_lt.2 hlen), h]

/-- The outputs of a report that was read: each field output carries the field's bytes (spec/30_encoding.md R71, R72). -/
theorem ports_readReport (rb : Nat → Byte) (axis : Axis) :
    (Response.ok (.report (readReport rb axis))).ports =
      { Ports.quiet 0x0#4 with
        rspEbi := rb 1, rspPbs := axis.code
        rspCpo := rb 4 ++ rb 3, rspNcoef := rb 6 ++ rb 5, rspPcoef := rb 8 ++ rb 7
        rspNsat := rb 10 ++ rb 9, rspPsat := rb 12 ++ rb 11, rspDband := rb 14 ++ rb 13 } := by
  simp only [Response.ports, Response.status, readReport, ofNat_memRead1, ofNat_memRead2, ofInt_sext16_memRead2]

/-- Settles O19: the selector has an axis, so the report is read, and its outputs are the bytes it was read from. -/
theorem deccDrivesItsPorts : Obligations.DeccDrivesItsPorts := by
  intro s len hlen hsel
  obtain ⟨axis, haxis, hcode⟩ := axisOfNibble_toNat ((s.rbByte 2).extractLsb' 0 1)
  rw [← selectorNibble_of_highBits_zero hsel] at haxis
  refine ⟨.ok (.report (readReport s.rbByte axis)), ?_, ?_⟩
  · rw [exec_decc, decodeReport_of_axis hlen haxis]
    rfl
  · rw [ports_readReport, hcode]
    rfl

/-! ### The outputs after the encoder's commands -/

theorem packByte_eq_ofNat_div (bits : BitVec 128) (k : Nat) : packByte bits k = BitVec.ofNat 8 (bits.toNat / 256 ^ k) := by
  rw [packByte_eq_slice, BitVec.extractLsb', Nat.shiftRight_eq_div_pow, pow_mul]
  rfl

/-- The lowest `n` bytes of a number, read little-endian, are its remainder modulo `256 ^ n`. -/
theorem foldr_bytes_eq_mod (n x : Nat) :
    (List.ofFn fun k : Fin n => BitVec.ofNat 8 (x / 256 ^ k.val)).foldr (fun b m => b.toNat + 256 * m) 0 = x % 256 ^ n := by
  induction n generalizing x with
  | zero => simp [Nat.mod_one]
  | succ n ih =>
    have htail : ∀ k : Fin n, x / 256 ^ (k.val + 1) = x / 256 / 256 ^ k.val := fun k => by
      rw [pow_succ', Nat.div_div_eq_div_mul]
    rw [List.ofFn_succ, List.foldr_cons, pow_succ', Nat.mod_mul]
    simp only [Fin.val_succ, htail, ih]
    simp

/-- `RSP_PACKED` after SNAP is the cells (spec/30_encoding.md R71). -/
theorem packedPort_pack (bits : BitVec 128) : packedPort (pack bits) = bits := by
  have hbytes : (pack bits).toList = List.ofFn fun k : Fin 16 => BitVec.ofNat 8 (bits.toNat / 256 ^ k.val) := by
    simp only [pack, Vector.toList_ofFn, packByte_eq_ofNat_div]
  have hmod : bits.toNat % 256 ^ 16 = bits.toNat := Nat.mod_eq_of_lt bits.isLt
  rw [packedPort, hbytes, foldr_bytes_eq_mod, hmod, BitVec.ofNat_toNat, BitVec.setWidth_eq]

/-- Settles O40: each command's response as its meaning gives it; of the three only SNAP's output is computed. -/
theorem encoderCommandsDriveTheirPorts : Obligations.EncoderCommandsDriveTheirPorts := by
  intro s hr
  refine ⟨fun index value h0 h1 => ?_, ?_, ?_⟩
  · exact ⟨_, _, exec_setb_accepted hr h0 h1 value, rfl, rfl⟩
  · refine ⟨_, s.bits, exec_snap_of_wasReset hr, fun _ _ => rfl, ?_⟩
    rw [Response.ports, packedPort_pack]
    rfl
  · exact ⟨_, s.gmap, exec_tgrp_of_wasReset hr, fun _ _ => rfl, rfl⟩

end Sys2Proof.Machine

/-!
PROOFS. The family of spec/40_encoder.md: what SETB writes and refuses, the payloads of SNAP and TGRP, the invariant, and what a
session's accepted SETBs leave in the cells and the flags.
-/

namespace Sys2Proof.Machine

/-! ### The invariant -/

/-- SETB turns a cell on only together with the flag of its group. -/
theorem State.Consistent.writeCell_touchGroup {s : State} (h : s.Consistent) (i : Nat) (v : Bool) :
    ((s.writeCell i v).touchGroup (groupOf i)).Consistent := by
  intro j hj hon
  rw [State.cell_touchGroup, State.cell_writeCell _ _ _ hj] at hon
  rw [State.flag_touchGroup _ _ (by omega), State.flag_writeCell]
  by_cases hji : j = i
  · rw [if_pos (by rw [hji, groupOf])]
  · rw [if_neg hji] at hon
    rw [h j hj hon, ite_self]

/-- No command leaves a cell on without its flag. -/
theorem exec_keeps_consistent {i : Instr} {s t : State} (h : exec i s = .next t) (hs : s.Consistent) : t.Consistent := by
  rcases exec_next_setb_or_respond h with ⟨index, value, r, -, -, rfl⟩ | ⟨r, rfl⟩
  · exact hs.writeCell_touchGroup index.toNat value
  · exact hs

theorem exec_keeps_inv {i : Instr} {s t : State} (h : exec i s = .next t) (hs : s.Inv) : t.Inv := by
  obtain ⟨hrb, hcells⟩ := hs
  have hkeeps := exec_keeps_consistent h
  obtain rfl := exec_next_eq_after h
  exact ⟨hrb, fun hr => hkeeps (hcells hr)⟩

theorem State.consistent_initialise (s : State) : s.initialise.Consistent := fun i _ hon => by simp [State.cell] at hon

/-- Settles O37: of the step's cases a reset turns every cell off, a buffer change keeps the form of the list, and a command
touches the group of the cell it writes. -/
theorem stepKeepsTheInvariant : Obligations.StepKeepsTheInvariant := by
  intro s t hs h
  obtain ⟨hrb, hcells⟩ := hs
  rcases step_cases h with ⟨-, rfl⟩ | ⟨rest, -, rfl⟩ | ⟨writes, rest, -, rfl⟩ | ⟨w, rest, i, -, -, hx⟩ | ⟨w, rest, e, -, -, rfl⟩
  · exact ⟨hrb, hcells⟩
  · exact ⟨hrb, fun _ => State.consistent_initialise _⟩
  · exact ⟨Memory.wf_writeAll hrb writes, hcells⟩
  · exact exec_keeps_inv hx ⟨hrb, hcells⟩
  · exact ⟨hrb, hcells⟩

/-! ### SETB -/

/-- The word of SETB as spec/30_encoding.md R69 writes it is the encoder's. -/
theorem setbWord_eq_encode (index : Int) (value : Bool) :
    BitVec.ofNat 32 (0x10000000 + (value.toNat <<< 16) + (index % 65536).toNat) = encode (.setb index value) := by
  have hword := encodedWordsAreTheSyntaxTables.1 index value
  rw [Nat.shiftLeft_eq, ← hword, BitVec.ofNat_toNat, BitVec.setWidth_eq]

/-- Settles O8: the word is the encoder's, and each of the two outcomes of the range check is one equation of `exec`. -/
theorem setbWritesOneCellAndOneFlag : Obligations.SetbWritesOneCellAndOneFlag := by
  refine ⟨fun index value hlo hhi => ?_, fun s index value hr => ⟨fun h0 h1 => ?_, fun hout => ?_⟩⟩
  · rw [setbWord_eq_encode]
    exact decode_encode_setb ((indexFits_iff index).2 ⟨hlo, hhi⟩) value
  · refine ⟨_, exec_setb_accepted hr h0 h1 value, rfl, fun j hj => ?_, fun g hg => ?_, rfl⟩
    · have hcell : j = index.toNat ↔ (j : Int) = index := by omega
      rw [State.cell_respond, State.cell_touchGroup, State.cell_writeCell _ _ _ hj]
      simp only [hcell]
    · have hgroup : g = groupOf index.toNat ↔ (g : Int) = index / 16 := by
        unfold groupOf Config.groupSize
        omega
      rw [State.flag_respond, State.flag_touchGroup _ _ hg, State.flag_writeCell]
      simp only [hgroup]
  · exact exec_setb_rejected hr hout value

/-- The patterns from 128 on are those of the indices out of range, read in two's complement. -/
theorem toInt_out_of_range {p : BitVec 16} (h : 128 ≤ p.toNat) : p.toInt < 0 ∨ 128 ≤ p.toInt := by
  rw [BitVec.toInt_eq_toNat_cond]
  split_ifs <;> omega

/-- A pattern below 128 is its own index. -/
theorem toInt_of_small {p : BitVec 16} (h : p.toNat < 128) : p.toInt = (p.toNat : Int) :=
  BitVec.toInt_eq_toNat_of_lt (by omega)

/-- Settles O9: the range check sees the two's-complement reading of the whole field. -/
theorem setbRejectsWithoutClampOrWrap : Obligations.SetbRejectsWithoutClampOrWrap := by
  intro s w rest hr hp hw
  have hstep := step_of_decode hp ((operandsAreAssembledFromTheirFields w).1 hw)
  have hr' : (s.awaiting rest).wasReset = true := hr
  refine ⟨fun hlarge => ?_, fun hsmall => ?_⟩
  · rw [hstep]
    exact exec_setb_rejected hr' (toInt_out_of_range hlarge) _
  · rw [hstep, toInt_of_small hsmall]
    refine ⟨_, exec_setb_accepted hr' (by omega) (by omega) _, rfl, ?_⟩
    rw [State.cell_respond, State.cell_touchGroup, Int.toNat_natCast, State.cell_writeCell _ _ _ hsmall, if_pos rfl]

/-- No command sets or clears the mark of a reset (spec/70_reset_and_hazards.md R142). -/
theorem exec_keeps_wasReset {i : Instr} {s t : State} (h : exec i s = .next t) : t.wasReset = s.wasReset := by
  obtain rfl := exec_next_eq_after h
  rfl

/-- Settles O10: an accepted SETB writes the same bits again, a rejected one is rejected again. -/
theorem setbIsIdempotent : Obligations.SetbIsIdempotent := by
  intro s t index value h
  have hkeeps := exec_keeps_wasReset h
  rcases exec_cases h with ⟨_, _, hi, hr, h0, h1, rfl⟩ | ⟨_, _, hi, hr, hout, rfl⟩ | ⟨hi, -⟩ | ⟨hi, -⟩ | ⟨_, hi, -⟩
  · obtain ⟨rfl, rfl⟩ := Instr.setb.inj hi
    refine ⟨_, exec_setb_accepted (hkeeps.trans hr) h0 h1 value, setBit_setBit_same _ _ _ _, ?_, rfl⟩
    simp [setBit_setBit_same]
  · obtain ⟨rfl, rfl⟩ := Instr.setb.inj hi
    exact ⟨_, exec_setb_rejected (hkeeps.trans hr) hout value, rfl, rfl, rfl⟩
  · nomatch hi
  · nomatch hi
  · nomatch hi

/-! ### SNAP -/

theorem getLsbD_packByte (bits : BitVec 128) (k : Nat) {b : Nat} (hb : b < 8) :
    (packByte bits k).getLsbD b = bits.getLsbD (8 * k + b) := by
  simp [packByte_eq_slice, hb]

theorem pack_getElem?_getD (bits : BitVec 128) {k : Nat} (hk : k < 16) : (pack bits)[k]?.getD 0 = packByte bits k := by
  rw [Vector.getElem?_eq_getElem hk, pack_getElem, Option.getD_some]

/-- Unpacking a snapshot gives the cells back (spec/40_encoder.md R85). -/
theorem unpackCell_pack (bits : BitVec 128) {i : Nat} (hi : i < 128) : unpackCell (pack bits) i = bits.getLsbD i := by
  rw [unpackCell, pack_getElem?_getD bits (by omega), getLsbD_packByte bits _ (Nat.mod_lt i (by decide)), Nat.div_add_mod]

/-- Settles O12: a packed byte is a slice of the cells. -/
theorem snapPacksTheCells : Obligations.SnapPacksTheCells := by
  refine ⟨decode_snapWord, fun s hr => ⟨pack s.bits, exec_snap_of_wasReset hr, fun k b hk hb => ?_⟩⟩
  rw [pack_getElem, getLsbD_packByte _ _ hb, State.cell]

theorem toNat_packByte (bits : BitVec 128) (k : Nat) : (packByte bits k).toNat = bits.toNat / 256 ^ k % 256 := by
  rw [packByte_eq_ofNat_div, BitVec.toNat_ofNat]

/-- The lowest `n` digits of a number in base 256 add up to its remainder modulo `256 ^ n`. -/
theorem sum_digits_eq_mod (x n : Nat) : ((List.range n).map fun k => x / 256 ^ k % 256 * 256 ^ k).sum = x % 256 ^ n := by
  induction n with
  | zero => simp [Nat.mod_one]
  | succ n ih =>
    rw [List.range_succ, List.map_append, List.sum_append, ih, Nat.mod_pow_succ, Nat.mul_comm (256 ^ n)]
    simp

/-- The payload of SNAP as a little-endian number (spec/40_encoder.md R85). -/
theorem sum_pack_eq_toNat (bits : BitVec 128) :
    ((List.range 16).map fun k => ((pack bits)[k]?.getD 0).toNat * 256 ^ k).sum = bits.toNat := by
  have hdigits : ((List.range 16).map fun k => ((pack bits)[k]?.getD 0).toNat * 256 ^ k) =
      (List.range 16).map fun k => bits.toNat / 256 ^ k % 256 * 256 ^ k :=
    List.map_congr_left fun k hk => by rw [pack_getElem?_getD bits (List.mem_range.1 hk), toNat_packByte]
  rw [hdigits, sum_digits_eq_mod]
  exact Nat.mod_eq_of_lt bits.isLt

/-- Settles O13: the payload as a number, as the port carries it, and unpacked. -/
theorem snapPayloadIsTheCellsAsANumber : Obligations.SnapPayloadIsTheCellsAsANumber := fun s hr =>
  ⟨pack s.bits, exec_snap_of_wasReset hr, sum_pack_eq_toNat s.bits, packedPort_pack s.bits, fun _ hi =>
    unpackCell_pack s.bits hi⟩

/-! ### TGRP -/

theorem mem_groupsOfMask (mask : BitVec 8) (g : Nat) : g ∈ groupsOfMask mask ↔ g < 8 ∧ mask.getLsbD g = true := by
  simp [groupsOfMask, Config.groups]

theorem pairwise_groupsOfMask (mask : BitVec 8) : (groupsOfMask mask).Pairwise (· < ·) :=
  List.pairwise_lt_range.filter _

/-- Settles O14: the mask is the flags themselves, and its list a filtered range. -/
theorem tgrpAnswersTheTouchedGroups : Obligations.TgrpAnswersTheTouchedGroups :=
  ⟨decode_tgrpWord, fun s hr => ⟨s.gmap, exec_tgrp_of_wasReset hr, fun _ _ => rfl, mem_groupsOfMask s.gmap,
    pairwise_groupsOfMask s.gmap⟩⟩

/-! ### The accepted SETBs of a session -/

/-- The accepted SETBs of a list of host actions, in order; `acceptedLatestFirst` is this list reversed. -/
def acceptedSetbs (actions : List HostAction) : List (Nat × Bool) := (issuedWords actions).filterMap acceptedSetb

/-- The cells after a list of accepted SETBs. -/
def cellsAfter (setbs : List (Nat × Bool)) (bits : BitVec 128) : BitVec 128 :=
  setbs.foldl (fun b x => setBit b x.1 x.2) bits

/-- The flags after a list of accepted SETBs. -/
def flagsAfter (setbs : List (Nat × Bool)) (gmap : BitVec 8) : BitVec 8 :=
  setbs.foldl (fun m x => setBit m (groupOf x.1) true) gmap

theorem acceptedSetbs_append (before later : List HostAction) :
    acceptedSetbs (before ++ later) = acceptedSetbs before ++ acceptedSetbs later := by
  simp [acceptedSetbs, issuedWords]

theorem lastAccepted_eq (actions : List HostAction) (i : Nat) :
    lastAccepted actions i = ((acceptedSetbs actions).reverse.find? fun x => x.1 == i).map Prod.snd := rfl

theorem mem_issuedWords (actions : List HostAction) (w : Word) : w ∈ issuedWords actions ↔ .issue w ∈ actions := by
  rw [issuedWords, List.mem_filterMap]
  refine ⟨?_, fun h => ⟨_, h, rfl⟩⟩
  rintro ⟨a, ha, haw⟩
  cases a with
  | issue v => exact Option.some.inj haw ▸ ha
  | assertReset => nomatch haw
  | changeBuffer writes => nomatch haw

theorem mem_acceptedSetbs (actions : List HostAction) (x : Nat × Bool) :
    x ∈ acceptedSetbs actions ↔ ∃ w, .issue w ∈ actions ∧ acceptedSetb w = some x := by
  simp only [acceptedSetbs, List.mem_filterMap, mem_issuedWords]

theorem acceptedSetb_of_setb {w : Word} {index : Int} {value : Bool} (h : decode w = .ok (.setb index value)) :
    acceptedSetb w = if 0 ≤ index ∧ index < 128 then some (index.toNat, value) else none := by
  simp only [acceptedSetb, h]

/-- A word that is an accepted SETB decodes to a SETB, with its index in range. -/
theorem acceptedSetb_eq_some_iff (w : Word) (i : Nat) (v : Bool) :
    acceptedSetb w = some (i, v) ↔ i < 128 ∧ decode w = .ok (.setb i v) := by
  refine ⟨fun h => ?_, fun ⟨hi, hd⟩ => ?_⟩
  · unfold acceptedSetb at h
    split at h
    case h_1 index value hd =>
      obtain ⟨hrange, hx⟩ := Option.ite_none_right_eq_some.1 h
      obtain ⟨rfl, rfl⟩ := Prod.mk.inj (Option.some.inj hx)
      exact ⟨by omega, by rw [hd, Int.toNat_of_nonneg hrange.1]⟩
    all_goals nomatch h
  · rw [acceptedSetb_of_setb hd, if_pos (by omega), Int.toNat_natCast]

/-- Cell `i` holds the value of the last SETB that named it, or what it held before. -/
theorem getLsbD_cellsAfter (setbs : List (Nat × Bool)) (bits : BitVec 128) {i : Nat} (hi : i < 128) :
    (cellsAfter setbs bits).getLsbD i =
      ((setbs.reverse.find? fun x => x.1 == i).map Prod.snd).getD (bits.getLsbD i) := by
  induction setbs using List.reverseRecOn with
  | nil => rfl
  | append_singleton setbs x ih =>
    have hlast : cellsAfter (setbs ++ [x]) bits = setBit (cellsAfter setbs bits) x.1 x.2 := by simp [cellsAfter]
    rw [hlast, getLsbD_setBit _ _ _ hi, List.reverse_concat]
    by_cases h : x.1 = i
    · simp [h]
    · rw [if_neg (Ne.symm h), List.find?_cons_of_neg (by simpa using h), ih]

/-- A flag is set when it was set before or some SETB named an index of its group. -/
theorem getLsbD_flagsAfter (setbs : List (Nat × Bool)) (gmap : BitVec 8) {g : Nat} (hg : g < 8) :
    (flagsAfter setbs gmap).getLsbD g = true ↔ gmap.getLsbD g = true ∨ ∃ x ∈ setbs, groupOf x.1 = g := by
  induction setbs generalizing gmap with
  | nil => simp [flagsAfter]
  | cons x setbs ih =>
    have hfirst : flagsAfter (x :: setbs) gmap = flagsAfter setbs (setBit gmap (groupOf x.1) true) := rfl
    rw [hfirst, ih, getLsbD_setBit _ _ _ hg]
    by_cases h : groupOf x.1 = g
    · simp [h]
    · simp [h, Ne.symm h]

/-! ### A session, step by step -/

/-- From `s` to `t` the block wrote what these SETBs write, and it is a block that was reset. -/
structure Wrote (setbs : List (Nat × Bool)) (s t : State) : Prop where
  wasReset : t.wasReset = true
  bits : t.bits = cellsAfter setbs s.bits
  gmap : t.gmap = flagsAfter setbs s.gmap

theorem Wrote.trans {first second : List (Nat × Bool)} {s t u : State} (h : Wrote first s t) (h' : Wrote second t u) :
    Wrote (first ++ second) s u where
  wasReset := h'.wasReset
  bits := by rw [h'.bits, h.bits, cellsAfter, cellsAfter, cellsAfter, List.foldl_append]
  gmap := by rw [h'.gmap, h.gmap, flagsAfter, flagsAfter, flagsAfter, List.foldl_append]

/-- A command that is not an accepted SETB gives a response and writes nothing. -/
theorem exec_respond_of_not_accepted {i : Instr} {s : State} (hr : s.wasReset = true)
    (hi : ∀ index value, i = .setb index value → ¬ (0 ≤ index ∧ index < 128)) : ∃ r, exec i s = .next (s.respond r) := by
  have hx := exec_of_wasReset i hr
  rcases exec_cases hx with ⟨_, _, hsetb, -, h0, h1, -⟩ | ⟨_, _, -, -, -, ht⟩ | ⟨-, -, ht⟩ | ⟨-, -, ht⟩ | ⟨_, -, ht⟩
  · exact absurd ⟨h0, h1⟩ (hi _ _ hsetb)
  · exact ⟨_, ht ▸ hx⟩
  · exact ⟨_, ht ▸ hx⟩
  · exact ⟨_, ht ▸ hx⟩
  · exact ⟨_, ht ▸ hx⟩

/-- A step that takes any word but an accepted SETB gives a response and writes nothing. -/
theorem step_respond_of_not_accepted {s : State} {w : Word} {rest : List HostAction} (hr : s.wasReset = true)
    (hp : s.pending = .issue w :: rest) (hw : acceptedSetb w = none) :
    ∃ r, step s = .next ((s.awaiting rest).respond r) := by
  by_cases hd : ∃ i, decode w = .ok i
  · obtain ⟨i, hd⟩ := hd
    rw [step_of_decode hp hd]
    refine exec_respond_of_not_accepted hr ?_
    rintro index value rfl hrange
    rw [acceptedSetb_of_setb hd, if_pos hrange] at hw
    nomatch hw
  · exact ⟨_, step_of_illegal hp fun i h => hd ⟨i, h⟩⟩

/-- One step of a session writes what the action's accepted SETB writes, or nothing. -/
theorem step_in_session {s : State} {a : HostAction} {rest : List HostAction} (hr : s.wasReset = true)
    (hp : s.pending = a :: rest) (ha : a ≠ .assertReset) :
    ∃ t, step s = .next t ∧ t.pending = rest ∧ Wrote (acceptedSetbs [a]) s t := by
  cases a with
  | assertReset => exact absurd rfl ha
  | changeBuffer writes => exact ⟨_, step_of_changeBuffer hp, rfl, hr, rfl, rfl⟩
  | issue w =>
    cases hw : acceptedSetb w with
    | none =>
      have hsetbs : acceptedSetbs [.issue w] = [] := by simp [acceptedSetbs, issuedWords, hw]
      obtain ⟨r, hstep⟩ := step_respond_of_not_accepted hr hp hw
      rw [hsetbs]
      exact ⟨_, hstep, rfl, hr, rfl, rfl⟩
    | some x =>
      have hsetbs : acceptedSetbs [.issue w] = [x] := by simp [acceptedSetbs, issuedWords, hw]
      obtain ⟨hi, hd⟩ := (acceptedSetb_eq_some_iff w x.1 x.2).1 hw
      have hx := exec_setb_accepted (s := s.awaiting rest) hr (Int.natCast_nonneg x.1) (by omega) x.2
      rw [hsetbs, step_of_decode hp hd]
      exact ⟨_, hx, rfl, hr, rfl, rfl⟩

/-- The host's actions of a session run to their end, and have written what their accepted SETBs write. -/
theorem run_session {actions rest : List HostAction} {s : State} (hw : WithinSession actions) (hr : s.wasReset = true)
    (hp : s.pending = actions ++ rest) :
    ∃ t, (∀ k, Host.Core.run core (actions.length + k) s = Host.Core.run core k t) ∧ t.pending = rest ∧
      Wrote (acceptedSetbs actions) s t := by
  induction actions generalizing s with
  | nil => exact ⟨s, fun k => by rw [List.length_nil, Nat.zero_add], hp, hr, rfl, rfl⟩
  | cons a actions ih =>
    obtain ⟨ha, hactions⟩ := List.forall_mem_cons.1 hw
    obtain ⟨t, hstep, htp, hfirst⟩ := step_in_session hr hp ha
    obtain ⟨u, hrun, hup, hlater⟩ := ih hactions hfirst.wasReset htp
    refine ⟨u, fun k => ?_, hup, ?_⟩
    · rw [List.length_cons, Nat.succ_add, run_succ_of_next hstep, hrun]
    · have hsetbs : acceptedSetbs (a :: actions) = acceptedSetbs [a] ++ acceptedSetbs actions :=
        acceptedSetbs_append [a] actions
      rw [hsetbs]
      exact hfirst.trans hlater

/-- A reset and then a session: the cells and the flags are what the session's accepted SETBs make of zeros. -/
theorem run_reset_session {actions rest : List HostAction} {s : State} (hw : WithinSession actions)
    (hp : s.pending = .assertReset :: (actions ++ rest)) :
    ∃ t, (∀ k, Host.Core.run core (actions.length + (k + 1)) s = Host.Core.run core k t) ∧ t.pending = rest ∧
      t.wasReset = true ∧ t.bits = cellsAfter (acceptedSetbs actions) 0 ∧ t.gmap = flagsAfter (acceptedSetbs actions) 0 := by
  obtain ⟨t, hrun, htp, hreset, hbits, hgmap⟩ := run_session hw (State.initialise_wasReset (s.awaiting (actions ++ rest))) rfl
  refine ⟨t, fun k => ?_, htp, hreset, hbits, hgmap⟩
  rw [← Nat.add_assoc, run_succ_of_next (step_of_assertReset hp), hrun]

/-- Settles O38: SNAP at the end of the session packs the cells its accepted SETBs wrote. -/
theorem snapShowsTheLastAcceptedValues : Obligations.SnapShowsTheLastAcceptedValues := by
  intro s actions hw hp
  obtain ⟨t, hrun, htp, hr, hbits, -⟩ := run_reset_session hw hp
  refine ⟨_, pack t.bits, (hrun 1).trans (run_succ_of_next (step_of_snapWord hr htp)), rfl, fun i hi => ?_⟩
  rw [unpackCell_pack _ hi, hbits, getLsbD_cellsAfter _ _ hi, ← lastAccepted_eq]
  simp

/-- Group `g` is that of the indices `16g` to `16g + 15`. -/
theorem groupOf_eq_iff (i g : Nat) : groupOf i = g ↔ 16 * (g : Int) ≤ i ∧ (i : Int) ≤ 16 * (g : Int) + 15 := by
  unfold groupOf Config.groupSize
  omega

/-- Some accepted SETB named an index of the group, in terms of the session's command words. -/
theorem exists_acceptedSetb_in_group_iff (actions : List HostAction) {g : Nat} (hg : g < 8) :
    (∃ x ∈ acceptedSetbs actions, groupOf x.1 = g) ↔
      ∃ w index value, .issue w ∈ actions ∧ decode w = .ok (.setb index value) ∧
        16 * (g : Int) ≤ index ∧ index ≤ 16 * (g : Int) + 15 := by
  constructor
  · rintro ⟨⟨i, v⟩, hx, hgroup⟩
    obtain ⟨w, hmem, hacc⟩ := (mem_acceptedSetbs actions _).1 hx
    obtain ⟨-, hd⟩ := (acceptedSetb_eq_some_iff w i v).1 hacc
    exact ⟨w, i, v, hmem, hd, (groupOf_eq_iff i g).1 hgroup⟩
  · rintro ⟨w, index, value, hmem, hd, hlo, hhi⟩
    lift index to Nat using by omega
    have hacc := (acceptedSetb_eq_some_iff w index value).2 ⟨by omega, hd⟩
    exact ⟨_, (mem_acceptedSetbs actions _).2 ⟨w, hmem, hacc⟩, (groupOf_eq_iff index g).2 ⟨hlo, hhi⟩⟩

/-- Settles O39: TGRP at the end of the session answers the flags its accepted SETBs set. -/
theorem tgrpShowsTheGroupsOfAcceptedSetbs : Obligations.TgrpShowsTheGroupsOfAcceptedSetbs := by
  intro s actions hw hp
  obtain ⟨t, hrun, htp, hr, -, hgmap⟩ := run_reset_session hw hp
  refine ⟨_, t.gmap, (hrun 1).trans (run_succ_of_next (step_of_tgrpWord hr htp)), rfl, fun g hg => ?_⟩
  rw [hgmap, getLsbD_flagsAfter _ _ hg, ← exists_acceptedSetb_in_group_iff actions hg]
  simp

end Sys2Proof.Machine

/-!
PROOFS. The family of spec/41_decoder.md: the strict selector, the order of DECC's checks, and the fields of an accepted report.
-/

namespace Sys2Proof.Machine

/-! ### The strict selector -/

/-- The two nibbles the strict policy accepts (spec/41_decoder.md R103). -/
theorem axisOfNibble_of_lt_two {sel : BitVec 4} (h : sel < 2#4) :
    axisOfNibble sel.toNat = some (if sel = 0#4 then .axisX else .axisY) := by
  by_cases h0 : sel = 0#4
  · rw [h0]
    rfl
  · obtain rfl : sel = 1#4 := by bv_omega
    rfl

/-- The fourteen other nibbles have no axis. -/
theorem axisOfNibble_of_two_le {sel : BitVec 4} (h : 2#4 ≤ sel) : axisOfNibble sel.toNat = none := by
  have hle : 2 ≤ sel.toNat := h
  rw [axisOfNibble, if_neg (by omega), if_neg (by omega)]

/-! ### The outcomes of DECC -/

theorem decodeReport_of_no_axis {len : Nat} (hlen : 15 ≤ len) {rb : Nat → Byte}
    (h : axisOfNibble (selectorNibble rb) = none) : decodeReport (some len) rb = .error .unknownVariant := by
  simp only [decodeReport, if_neg (Nat.not_lt.2 hlen), h]

/-- The report an accepted DECC answers, by the bit pattern of the nibble. -/
theorem exec_decc_accepted {s : State} {len : Nat} (hlen : 15 ≤ len) (hsel : (s.rbByte 2).extractLsb' 0 4 < 2#4) :
    exec (.decc (some len)) s = .next (s.respond (.ok (.report
      (readReport s.rbByte (if (s.rbByte 2).extractLsb' 0 4 = 0#4 then .axisX else .axisY))))) := by
  have haxis := axisOfNibble_of_lt_two hsel
  rw [← selectorNibble_eq_extractLsb'] at haxis
  rw [exec_decc, decodeReport_of_axis hlen haxis, Response.ofResult]

theorem exec_decc_unknownVariant {s : State} {len : Nat} (hlen : 15 ≤ len)
    (hsel : 2#4 ≤ (s.rbByte 2).extractLsb' 0 4) :
    exec (.decc (some len)) s = .next (s.respond (.error .unknownVariant)) := by
  have haxis := axisOfNibble_of_two_le hsel
  rw [← selectorNibble_eq_extractLsb'] at haxis
  rw [exec_decc, decodeReport_of_no_axis hlen haxis, Response.ofResult]

theorem exec_decc_truncated (s : State) {len : Nat} (hlen : len < 15) :
    exec (.decc (some len)) s = .next (s.respond (.error .truncated)) := by
  rw [exec_decc, decodeReport_of_short hlen, Response.ofResult]

/-- Settles O17: one equation of `exec` for each outcome; the absent buffer is the first case of the decoder. -/
theorem deccChecksInOrder : Obligations.DeccChecksInOrder := fun s =>
  ⟨exec_decc none s, fun _ hlen => exec_decc_truncated s hlen, fun _ hlen hsel => exec_decc_unknownVariant hlen hsel,
    fun _ hlen hsel => ⟨_, exec_decc_accepted hlen hsel⟩⟩

/-! ### The fields of the report -/

/-- A signed 16-bit field is its two bytes as a two's-complement number (spec/41_decoder.md R102). -/
theorem sext16_memRead2_eq_toInt_append (rb : Nat → Byte) (off : Nat) :
    sext16 (memRead2 rb off) = (rb (off + 1) ++ rb off).toInt := by
  rw [memRead2_eq_toNat_append]
  exact sext16_toNat _

/-- Settles O16: the two nibbles are those below 2, and each field is read at its offset as one or two bytes. -/
theorem deccReadsTheEightFields : Obligations.DeccReadsTheEightFields := by
  intro s len hlen hsel
  have hlt : (s.rbByte 2).extractLsb' 0 4 < 2#4 := by
    rcases hsel with h | h <;> rw [h] <;> decide
  refine ⟨_, exec_decc_accepted hlen hlt, rfl, rfl, ?_, ?_, ?_, ?_, ?_, ?_⟩
  · exact sext16_memRead2_eq_toInt_append s.rbByte 3
  · exact sext16_memRead2_eq_toInt_append s.rbByte 5
  · exact sext16_memRead2_eq_toInt_append s.rbByte 7
  · exact memRead2_eq_toNat_append s.rbByte 9
  · exact memRead2_eq_toNat_append s.rbByte 11
  · exact memRead2_eq_toNat_append s.rbByte 13

end Sys2Proof.Machine

/-!
PROOFS. The family of spec/60_exceptions.md: the causes of the error kinds, what an error leaves unchanged, the step of a block
that was reset, and the outputs of an error response.
-/

namespace Sys2Proof.Machine

/-! ### The causes of the error kinds -/

theorem effectOf_setb_response_eq_error_iff (index : Int) (value : Bool) (bits : BitVec 128) (gmap : BitVec 8)
    (rb : Nat → Byte) (k : ErrorKind) :
    (effectOf (.setb index value) bits gmap rb).response = .error k ↔ k = .outOfRange ∧ (index < 0 ∨ 128 ≤ index) := by
  have hrange := indexInRange_iff index
  by_cases hi : indexInRange index = true
  · obtain ⟨h0, h1⟩ := hrange.1 hi
    have hin : ¬ (index < 0 ∨ 128 ≤ index) := by omega
    simp [effectOf, hi, hin]
  · have hout : index < 0 ∨ 128 ≤ index := by
      rw [hrange] at hi
      omega
    simp [effectOf, hi, hout, eq_comm]

theorem axisOfNibble_eq_none_iff (sel : Nat) : axisOfNibble sel = none ↔ 2 ≤ sel := by
  simp only [axisOfNibble]
  split_ifs with h0 h1
  · simp [h0]
  · simp [h1]
  · simp only [true_iff]
    omega

/-- The causes of DECC's three errors; each check is reached only when the ones before it have passed
(spec/41_decoder.md R101). -/
theorem decodeReport_eq_error_iff (buffer : Option Nat) (rb : Nat → Byte) (k : ErrorKind) :
    decodeReport buffer rb = .error k ↔
      (k = .missingBuffer ∧ buffer = none) ∨
      (k = .truncated ∧ ∃ len, buffer = some len ∧ len < 15) ∨
      (k = .unknownVariant ∧ ∃ len, buffer = some len ∧ 15 ≤ len ∧ 2 ≤ selectorNibble rb) := by
  rw [← axisOfNibble_eq_none_iff]
  rcases decodeReport_cases buffer rb with ⟨rfl, hd⟩ | ⟨len, rfl, hlen, hd⟩ | ⟨len, rfl, hlen, haxis, hd⟩ |
    ⟨len, axis, rfl, hlen, haxis, hd⟩
  · simp [hd, eq_comm]
  · simp [hd, hlen, Nat.not_le.2 hlen, eq_comm]
  · simp [hd, hlen, Nat.not_lt.2 hlen, haxis, eq_comm]
  · simp [hd, Nat.not_lt.2 hlen, haxis]

theorem ofResult_eq_error_iff (r : Except ErrorKind Payload) (k : ErrorKind) :
    Response.ofResult r = .error k ↔ r = .error k := by
  cases r <;> simp [Response.ofResult]

/-- The newest response after a command that answers is the response of its effect. -/
theorem exec_next_head? {i : Instr} {s t : State} (h : exec i s = .next t) :
    t.responses.head? = some (effectOf i s.bits s.gmap s.rbByte).response := by
  obtain rfl := exec_next_eq_after h
  rfl

/-- Settles O20: SETB's range check, DECC's checks, and two commands whose response is always OK. -/
theorem errorCausesAreExact : Obligations.ErrorCausesAreExact := by
  intro i s t k h
  rw [exec_next_head? h, Option.some_inj]
  cases i with
  | setb index value =>
    rw [effectOf_setb_response_eq_error_iff]
    simp
  | snap => simp [effectOf]
  | tgrp => simp [effectOf]
  | decc buffer =>
    rw [effectOf, ofResult_eq_error_iff, decodeReport_eq_error_iff, selectorNibble_eq_extractLsb']
    simp

/-! ### What an error leaves unchanged -/

/-- The one effect that writes is an accepted SETB's, and its response is OK (spec/60_exceptions.md R123). -/
theorem effectOf_of_error {i : Instr} {bits : BitVec 128} {gmap : BitVec 8} {rb : Nat → Byte} {k : ErrorKind}
    (h : (effectOf i bits gmap rb).response = .error k) : effectOf i bits gmap rb = ⟨.error k, bits, gmap⟩ := by
  rw [← h]
  cases i with
  | setb index value =>
    obtain ⟨-, hout⟩ := (effectOf_setb_response_eq_error_iff index value bits gmap rb k).1 h
    have hi : ¬ indexInRange index = true := by
      rw [indexInRange_iff]
      omega
    rw [effectOf, if_neg hi]
  | snap => rfl
  | tgrp => rfl
  | decc buffer => rfl

/-- A command that answers an error has given that response and done nothing else. -/
theorem exec_next_eq_respond_of_error {i : Instr} {s t : State} {k : ErrorKind} (h : exec i s = .next t)
    (hk : t.responses.head? = some (.error k)) : t = s.respond (.error k) := by
  rw [exec_next_head? h, Option.some_inj] at hk
  rw [exec_next_eq_after h, effectOf_of_error hk]
  rfl

/-- Settles O21: a word that decodes runs its command, any other word is answered `IllegalCommand`. -/
theorem errorsLeaveTheStateUntouched : Obligations.ErrorsLeaveTheStateUntouched := by
  intro s t w rest k hp h hk
  by_cases hd : ∃ i, decode w = .ok i
  · obtain ⟨i, hd⟩ := hd
    rw [step_of_decode hp hd] at h
    exact exec_next_eq_respond_of_error h hk
  · rw [step_of_illegal hp fun i hi => hd ⟨i, hi⟩] at h
    obtain rfl := Host.Outcome.next.inj h
    obtain rfl : ErrorKind.illegalCommand = k := by simpa using hk
    rfl

/-! ### The step of a block that was reset -/

/-- With nothing to take, a step holds the whole state (spec/60_exceptions.md R135). -/
theorem step_of_idle {s : State} (hp : s.pending = []) : step s = .next s := by
  simp [step, advance, hp]

/-- A command word is answered on a block that was reset, and the block stays reset. -/
theorem step_of_issue_of_wasReset {s : State} {w : Word} {rest : List HostAction} (hr : s.wasReset = true)
    (hp : s.pending = .issue w :: rest) : ∃ t, step s = .next t ∧ t.wasReset = true := by
  by_cases hd : ∃ i, decode w = .ok i
  · obtain ⟨i, hd⟩ := hd
    have hx := exec_of_wasReset i (s := s.awaiting rest) hr
    exact ⟨_, (step_of_decode hp hd).trans hx, hr⟩
  · exact ⟨_, step_of_illegal hp fun i hi => hd ⟨i, hi⟩, hr⟩

/-- Settles O25: each action the host can take next, or none. -/
theorem stepIsTotalAfterReset : Obligations.StepIsTotalAfterReset := by
  refine ⟨fun s hr => ?_, fun s hp => step_of_idle hp⟩
  cases hp : s.pending with
  | nil => exact ⟨s, step_of_idle hp, hr⟩
  | cons a rest =>
    cases a with
    | assertReset => exact ⟨_, step_of_assertReset hp, State.initialise_wasReset _⟩
    | changeBuffer writes => exact ⟨_, step_of_changeBuffer hp, hr⟩
    | issue w => exact step_of_issue_of_wasReset hr hp

/-! ### The outputs of an error response -/

/-- `RSP_STATUS` is driven with the status of the response, whatever its payload. -/
theorem ports_rspStatus (r : Response) : r.ports.rspStatus = r.status := by
  cases r with
  | ok p => cases p <;> rfl
  | error k => rfl

/-- The status codes of the responses leave out 0x5 to 0xE (spec/60_exceptions.md R121). -/
theorem status_not_reserved (r : Response) : ¬ (0x5#4 ≤ r.status ∧ r.status ≤ 0xE#4) := by
  cases r with
  | ok p =>
    rw [Response.status]
    decide
  | error k => cases k <;> decide

/-- Settles O22: the port carries the status, and the status is read off the table. -/
theorem statusCodesAreTheTables : Obligations.StatusCodesAreTheTables := by
  refine ⟨fun p => ports_rspStatus (.ok p), rfl, rfl, rfl, rfl, rfl, fun r => ?_⟩
  rw [ports_rspStatus]
  exact status_not_reserved r

/-- Settles O23: an error response drives the quiet ports with its code. -/
theorem errorsDriveNoPayload : Obligations.ErrorsDriveNoPayload := fun _ => rfl

end Sys2Proof.Machine

/-!
PROOFS. The family of spec/70_reset_and_hazards.md: the one effect of reset, the block before its first reset, and the answers to
a list of command words.
-/

namespace Sys2Proof.Machine

/-! ### Reset -/

@[simp] theorem State.cell_initialise (s : State) (i : Nat) : s.initialise.cell i = false := by simp [State.cell]

/-- Settles O32: the step that takes the reset initialises the block. -/
theorem resetClearsCellsAndFlags : Obligations.ResetClearsCellsAndFlags := fun _ _ hp =>
  ⟨_, step_of_assertReset hp, State.cell_initialise _, State.flag_initialise _, rfl, rfl⟩

/-! ### Before the first reset -/

/-- Reset leaves the report buffer as it was, so DECC reads the same bytes after it. -/
@[simp] theorem State.rbByte_initialise (s : State) : s.initialise.rbByte = s.rbByte := rfl

/-- Settles O34: the encoder's commands ask for the mark of a reset, DECC for the bytes of the report alone. -/
theorem neverResetBlockRefusesTheEncoder : Obligations.NeverResetBlockRefusesTheEncoder := by
  refine ⟨State.reset_wasReset, fun s hr => ⟨fun index value => ?_, ?_, ?_, fun buffer => ?_⟩⟩
  · exact exec_of_never (fun _ => nofun) hr
  · exact exec_of_never (fun _ => nofun) hr
  · exact exec_of_never (fun _ => nofun) hr
  · refine ⟨_, exec_decc buffer s, ?_⟩
    rw [exec_decc, State.rbByte_initialise]
    rfl

/-! ### A list of command words -/

/-- A step that answers takes the host's next action from its list and leaves the others. -/
theorem step_next_pending {s t : State} (h : step s = .next t) : t.pending = s.pending.tail := by
  rcases step_cases h with ⟨hp, rfl⟩ | ⟨rest, hp, rfl⟩ | ⟨writes, rest, hp, rfl⟩ | ⟨w, rest, i, hp, -, hx⟩ |
    ⟨w, rest, e, hp, -, rfl⟩
  · simp [hp]
  · simp [hp]
  · simp [hp]
  · obtain rfl := exec_next_eq_after hx
    rw [hp]
    rfl
  · simp [hp]

/-- A command word on a block that was reset, legal or not: the block gives one response, waits for the next action and stays
reset. -/
theorem step_answers_issue {s : State} {w : Word} {rest : List HostAction} (hr : s.wasReset = true)
    (hp : s.pending = .issue w :: rest) :
    ∃ t r, step s = .next t ∧ t.responses = r :: s.responses ∧ t.pending = rest ∧ t.wasReset = true := by
  obtain ⟨t, hstep, htr⟩ := step_of_issue_of_wasReset hr hp
  obtain ⟨r, hresp⟩ := (oneResponsePerCommandNeverAltered s t hstep).1 w rest hp
  have htp : t.pending = rest := by rw [step_next_pending hstep, hp, List.tail_cons]
  exact ⟨t, r, hstep, hresp, htp, htr⟩

/-- A list of command words runs to its end with one response for each word (spec/70_reset_and_hazards.md R151). -/
theorem run_answers_words {s : State} {ws : List Word} (hr : s.wasReset = true) (hp : s.pending = ws.map .issue) :
    ∃ t : State, Host.Core.run core ws.length s = .next t ∧ t.pending = [] ∧
      ∃ new, t.responses = new ++ s.responses ∧ new.length = ws.length := by
  induction ws generalizing s with
  | nil => exact ⟨s, run_zero s, hp, [], rfl, rfl⟩
  | cons w ws ih =>
    obtain ⟨t, r, hstep, hresp, htp, htr⟩ := step_answers_issue hr hp
    obtain ⟨u, hrun, hup, new, hnew, hlen⟩ := ih htr htp
    refine ⟨u, ?_, hup, new ++ [r], ?_, ?_⟩
    · rw [List.length_cons, run_succ_of_next hstep, hrun]
    · rw [hnew, hresp, List.append_assoc, List.singleton_append]
    · simp [hlen]

/-- Settles O26: one word by `step_answers_issue`, any number of them by induction on the list. -/
theorem everyCommandAnswers : Obligations.EveryCommandAnswers := by
  refine ⟨fun s w rest hr hp => ?_, fun s ws hr hp => run_answers_words hr hp⟩
  obtain ⟨t, r, hstep, hresp, htp, -⟩ := step_answers_issue hr hp
  exact ⟨t, r, hstep, hresp, htp⟩

end Sys2Proof.Machine
